-- ==== Sys2Proof/Word.lean ====
section
/-! DEFINITION. The widths the spec gives values (R8, R5): bytes, 16-bit words, 12-bit address immediates, 4-bit fields. -/

namespace Sys2Proof

/-- An 8-bit value: a V register, a timer, a memory cell, the immediate kk (R8). -/
abbrev Byte := BitVec 8

/-- A 16-bit value: I, pc, a stack entry, an opcode (R5 `I_BITS`, `PC_BITS`; R8). -/
abbrev Word := BitVec 16

/-- The 12-bit address immediate nnn (R46). -/
abbrev Addr12 := BitVec 12

/-- A 4-bit field of an opcode: the register index x or y, or the row count n (R46, R47). -/
abbrev Nibble := BitVec 4

end Sys2Proof
end

