-- ==== Sys2Proof/Syntax.lean ====
section
/-! DEFINITION. The instructions: one constructor per row of spec/opcode_table.json, in the table's order (R48). -/

namespace Sys2Proof

/-- The 35 instructions of R48. x and y are register indices, kk an immediate byte, nnn an address, n a row count (R47). -/
inductive Instr where
  /-- CLS, 00E0 (R89). -/
  | cls
  /-- RET, 00EE (R56). -/
  | ret
  /-- SYS nnn, 0nnn other than 00E0 and 00EE (R57). -/
  | sys (nnn : Addr12)
  /-- JP nnn, 1nnn (R58). -/
  | jp (nnn : Addr12)
  /-- CALL nnn, 2nnn (R59). -/
  | call (nnn : Addr12)
  /-- SE Vx, kk, 3xkk (R62). -/
  | seImm (x : Nibble) (kk : Byte)
  /-- SNE Vx, kk, 4xkk (R63). -/
  | sneImm (x : Nibble) (kk : Byte)
  /-- SE Vx, Vy, 5xy0 (R64). -/
  | seReg (x y : Nibble)
  /-- LD Vx, kk, 6xkk (R68). -/
  | ldImm (x : Nibble) (kk : Byte)
  /-- ADD Vx, kk, 7xkk (R69). -/
  | addImm (x : Nibble) (kk : Byte)
  /-- LD Vx, Vy, 8xy0 (R70). -/
  | ldReg (x y : Nibble)
  /-- OR Vx, Vy, 8xy1 (R71). -/
  | or (x y : Nibble)
  /-- AND Vx, Vy, 8xy2 (R72). -/
  | and (x y : Nibble)
  /-- XOR Vx, Vy, 8xy3 (R73). -/
  | xor (x y : Nibble)
  /-- ADD Vx, Vy, 8xy4 (R74). -/
  | addReg (x y : Nibble)
  /-- SUB Vx, Vy, 8xy5 (R75). -/
  | sub (x y : Nibble)
  /-- SHR Vx, Vy, 8xy6; y is encoded but not read (R76). -/
  | shr (x y : Nibble)
  /-- SUBN Vx, Vy, 8xy7 (R77). -/
  | subn (x y : Nibble)
  /-- SHL Vx, Vy, 8xyE; y is encoded but not read (R78). -/
  | shl (x y : Nibble)
  /-- SNE Vx, Vy, 9xy0 (R65). -/
  | sneReg (x y : Nibble)
  /-- LD I, nnn, Annn (R80). -/
  | ldI (nnn : Addr12)
  /-- JP V0, nnn, Bnnn (R60). -/
  | jpV0 (nnn : Addr12)
  /-- RND Vx, kk, Cxkk (R79). -/
  | rnd (x : Nibble) (kk : Byte)
  /-- DRW Vx, Vy, n, Dxyn (R90). -/
  | drw (x y n : Nibble)
  /-- SKP Vx, Ex9E (R92). -/
  | skp (x : Nibble)
  /-- SKNP Vx, ExA1 (R93). -/
  | sknp (x : Nibble)
  /-- LD Vx, DT, Fx07 (R86). -/
  | ldDtRead (x : Nibble)
  /-- LD Vx, K, Fx0A (R94). -/
  | ldK (x : Nibble)
  /-- LD DT, Vx, Fx15 (R87). -/
  | ldDtWrite (x : Nibble)
  /-- LD ST, Vx, Fx18 (R88). -/
  | ldSt (x : Nibble)
  /-- ADD I, Vx, Fx1E (R81). -/
  | addI (x : Nibble)
  /-- LD F, Vx, Fx29 (R82). -/
  | ldF (x : Nibble)
  /-- LD B, Vx, Fx33 (R83). -/
  | ldB (x : Nibble)
  /-- LD [I], Vx, Fx55 (R84). -/
  | stRegs (x : Nibble)
  /-- LD Vx, [I], Fx65 (R85). -/
  | ldRegs (x : Nibble)
deriving DecidableEq, Repr

end Sys2Proof
end

