-- ==== Sys2Proof/Decode.lean ====
section
/-! DEFINITION. The decode of every 16-bit word (R48), the encoder written from the same layout (R45), and the
assembler text (R53). -/

namespace Sys2Proof

/-- The top nibble t = op[15:12], the family (R46). -/
def fieldT (op : Word) : Nibble := op.extractLsb' 12 4

/-- x = op[11:8] (R46). -/
def fieldX (op : Word) : Nibble := op.extractLsb' 8 4

/-- y = op[7:4] (R46). -/
def fieldY (op : Word) : Nibble := op.extractLsb' 4 4

/-- n = op[3:0] (R46). -/
def fieldN (op : Word) : Nibble := op.extractLsb' 0 4

/-- kk = op[7:0] (R46). -/
def fieldKK (op : Word) : Byte := op.extractLsb' 0 8

/-- nnn = op[11:0] (R46). -/
def fieldNNN (op : Word) : Addr12 := op.extractLsb' 0 12

/-- Why a byte sequence is no instruction. -/
inductive DecodeError where
  /-- The word is one of the undefined encodings of R49. -/
  | undefinedWord (op : Word)
  /-- Fewer than the 2 bytes every instruction has (R44). -/
  | truncated
deriving DecidableEq, Repr

/-- Family 0 (R48): 00E0 and 00EE match exactly and are tested first. -/
def decodeFamily0 (op : Word) : Instr :=
  if op = 0x00E0 then .cls
  else if op = 0x00EE then .ret
  else .sys (fieldNNN op)

/-- Family 8 (R48), by the sub-operation n. -/
def decodeFamily8 (op : Word) : Except DecodeError Instr :=
  let x := fieldX op
  let y := fieldY op
  match (fieldN op).toNat with
  | 0x0 => .ok (.ldReg x y)
  | 0x1 => .ok (.or x y)
  | 0x2 => .ok (.and x y)
  | 0x3 => .ok (.xor x y)
  | 0x4 => .ok (.addReg x y)
  | 0x5 => .ok (.sub x y)
  | 0x6 => .ok (.shr x y)
  | 0x7 => .ok (.subn x y)
  | 0xE => .ok (.shl x y)
  | _ => .error (.undefinedWord op)

/-- Family E (R48), by the sub-operation kk. -/
def decodeFamilyE (op : Word) : Except DecodeError Instr :=
  let x := fieldX op
  let kk := fieldKK op
  if kk = 0x9E then .ok (.skp x)
  else if kk = 0xA1 then .ok (.sknp x)
  else .error (.undefinedWord op)

/-- Family F (R48), by the sub-operation kk. -/
def decodeFamilyF (op : Word) : Except DecodeError Instr :=
  let x := fieldX op
  let kk := fieldKK op
  if kk = 0x07 then .ok (.ldDtRead x)
  else if kk = 0x0A then .ok (.ldK x)
  else if kk = 0x15 then .ok (.ldDtWrite x)
  else if kk = 0x18 then .ok (.ldSt x)
  else if kk = 0x1E then .ok (.addI x)
  else if kk = 0x29 then .ok (.ldF x)
  else if kk = 0x33 then .ok (.ldB x)
  else if kk = 0x55 then .ok (.stRegs x)
  else if kk = 0x65 then .ok (.ldRegs x)
  else .error (.undefinedWord op)

/-- The opcode map of R48: total on all 65,536 words; an undefined word of R49 is rejected by name. -/
def decodeWord (op : Word) : Except DecodeError Instr :=
  let x := fieldX op
  let y := fieldY op
  let kk := fieldKK op
  let nnn := fieldNNN op
  match (fieldT op).toNat with
  | 0x0 => .ok (decodeFamily0 op)
  | 0x1 => .ok (.jp nnn)
  | 0x2 => .ok (.call nnn)
  | 0x3 => .ok (.seImm x kk)
  | 0x4 => .ok (.sneImm x kk)
  | 0x5 => if fieldN op = 0 then .ok (.seReg x y) else .error (.undefinedWord op)
  | 0x6 => .ok (.ldImm x kk)
  | 0x7 => .ok (.addImm x kk)
  | 0x8 => decodeFamily8 op
  | 0x9 => if fieldN op = 0 then .ok (.sneReg x y) else .error (.undefinedWord op)
  | 0xA => .ok (.ldI nnn)
  | 0xB => .ok (.jpV0 nnn)
  | 0xC => .ok (.rnd x kk)
  | 0xD => .ok (.drw x y (fieldN op))
  | 0xE => decodeFamilyE op
  | _ => decodeFamilyF op

/-- The opcode of two bytes in memory order: big-endian, the byte at the lower address is bits 15:8 (R35, R36). -/
def wordOfBytes (hi lo : Byte) : Word := hi ++ lo

/-- A decoder always consumes 2 bytes (R44); it answers the instruction and the bytes after it. -/
def decode : List Byte → Except DecodeError (Instr × List Byte)
  | hi :: lo :: rest =>
    match decodeWord (wordOfBytes hi lo) with
    | .ok i => .ok (i, rest)
    | .error e => .error e
  | _ => .error .truncated

/-- The word of t, x and kk (R45). -/
def wordXKK (t x : Nibble) (kk : Byte) : Word := t ++ x ++ kk

/-- The word of t, x, y and n (R45). -/
def wordXYN (t x y n : Nibble) : Word := t ++ x ++ y ++ n

/-- The word of t and nnn (R45). -/
def wordNNN (t : Nibble) (nnn : Addr12) : Word := t ++ nnn

/-- The opcode of an instruction, from the layout of R45 and the patterns of R48. -/
def encode : Instr → Word
  | .cls => 0x00E0
  | .ret => 0x00EE
  | .sys nnn => wordNNN 0x0 nnn
  | .jp nnn => wordNNN 0x1 nnn
  | .call nnn => wordNNN 0x2 nnn
  | .seImm x kk => wordXKK 0x3 x kk
  | .sneImm x kk => wordXKK 0x4 x kk
  | .seReg x y => wordXYN 0x5 x y 0x0
  | .ldImm x kk => wordXKK 0x6 x kk
  | .addImm x kk => wordXKK 0x7 x kk
  | .ldReg x y => wordXYN 0x8 x y 0x0
  | .or x y => wordXYN 0x8 x y 0x1
  | .and x y => wordXYN 0x8 x y 0x2
  | .xor x y => wordXYN 0x8 x y 0x3
  | .addReg x y => wordXYN 0x8 x y 0x4
  | .sub x y => wordXYN 0x8 x y 0x5
  | .shr x y => wordXYN 0x8 x y 0x6
  | .subn x y => wordXYN 0x8 x y 0x7
  | .shl x y => wordXYN 0x8 x y 0xE
  | .sneReg x y => wordXYN 0x9 x y 0x0
  | .ldI nnn => wordNNN 0xA nnn
  | .jpV0 nnn => wordNNN 0xB nnn
  | .rnd x kk => wordXKK 0xC x kk
  | .drw x y n => wordXYN 0xD x y n
  | .skp x => wordXKK 0xE x 0x9E
  | .sknp x => wordXKK 0xE x 0xA1
  | .ldDtRead x => wordXKK 0xF x 0x07
  | .ldK x => wordXKK 0xF x 0x0A
  | .ldDtWrite x => wordXKK 0xF x 0x15
  | .ldSt x => wordXKK 0xF x 0x18
  | .addI x => wordXKK 0xF x 0x1E
  | .ldF x => wordXKK 0xF x 0x29
  | .ldB x => wordXKK 0xF x 0x33
  | .stRegs x => wordXKK 0xF x 0x55
  | .ldRegs x => wordXKK 0xF x 0x65

/-- The byte of a word at the lower address (R35). -/
def highByte (w : Word) : Byte := w.extractLsb' 8 8

/-- The byte of a word at the higher address (R35). -/
def lowByte (w : Word) : Byte := w.extractLsb' 0 8

/-- An instruction as the two bytes in memory order (R35, R44). -/
def encodeBytes (i : Instr) : List Byte := [highByte (encode i), lowByte (encode i)]

/-- The 16-bit word of the opcode-table row's bits: `w` cut to `nbits` bits, the bits above them 0. -/
def tableWord (nbits w : Nat) : Word := BitVec.ofNat 16 (w % 2 ^ nbits)

/-- What the decoder reads from an instruction whose bits, numbered as spec/opcode_table.json numbers them, are `w`: its
one word is laid out big-endian (R35) and given to `decode`. -/
def decodeTableWord (nbits w : Nat) : Option Instr :=
  match decode [highByte (tableWord nbits w), lowByte (tableWord nbits w)] with
  | .ok (i, _) => some i
  | .error _ => none

/-- A number below 16 as one hexadecimal digit, capitals as R14 writes register names. -/
def hexDigit (d : Nibble) : Char :=
  (['0', '1', '2', '3', '4', '5', '6', '7', '8', '9', 'A', 'B', 'C', 'D', 'E', 'F'][d.toNat]?).getD '0'

/-- An immediate byte in hexadecimal with `0x` (R53). -/
def hexByte (b : Byte) : List Char :=
  ['0', 'x', hexDigit (b.extractLsb' 4 4), hexDigit (b.extractLsb' 0 4)]

/-- An address in hexadecimal with `0x` (R53). -/
def hexAddr (a : Addr12) : List Char :=
  ['0', 'x', hexDigit (a.extractLsb' 8 4), hexDigit (a.extractLsb' 4 4), hexDigit (a.extractLsb' 0 4)]

/-- The assembler name of a register: V and one hexadecimal digit (R14). -/
def regName (x : Nibble) : List Char := ['V', hexDigit x]

/-- The assembler text of an instruction (R53), as its characters. DEDUCED (assumption 9): how many digits each operand has. -/
def asmText : Instr → List Char
  | .cls => "CLS".toList
  | .ret => "RET".toList
  | .sys nnn => "SYS ".toList ++ hexAddr nnn
  | .jp nnn => "JP ".toList ++ hexAddr nnn
  | .call nnn => "CALL ".toList ++ hexAddr nnn
  | .seImm x kk => "SE ".toList ++ regName x ++ ", ".toList ++ hexByte kk
  | .sneImm x kk => "SNE ".toList ++ regName x ++ ", ".toList ++ hexByte kk
  | .seReg x y => "SE ".toList ++ regName x ++ ", ".toList ++ regName y
  | .ldImm x kk => "LD ".toList ++ regName x ++ ", ".toList ++ hexByte kk
  | .addImm x kk => "ADD ".toList ++ regName x ++ ", ".toList ++ hexByte kk
  | .ldReg x y => "LD ".toList ++ regName x ++ ", ".toList ++ regName y
  | .or x y => "OR ".toList ++ regName x ++ ", ".toList ++ regName y
  | .and x y => "AND ".toList ++ regName x ++ ", ".toList ++ regName y
  | .xor x y => "XOR ".toList ++ regName x ++ ", ".toList ++ regName y
  | .addReg x y => "ADD ".toList ++ regName x ++ ", ".toList ++ regName y
  | .sub x y => "SUB ".toList ++ regName x ++ ", ".toList ++ regName y
  | .shr x y => "SHR ".toList ++ regName x ++ ", ".toList ++ regName y
  | .subn x y => "SUBN ".toList ++ regName x ++ ", ".toList ++ regName y
  | .shl x y => "SHL ".toList ++ regName x ++ ", ".toList ++ regName y
  | .sneReg x y => "SNE ".toList ++ regName x ++ ", ".toList ++ regName y
  | .ldI nnn => "LD I, ".toList ++ hexAddr nnn
  | .jpV0 nnn => "JP V0, ".toList ++ hexAddr nnn
  | .rnd x kk => "RND ".toList ++ regName x ++ ", ".toList ++ hexByte kk
  | .drw x y n => "DRW ".toList ++ regName x ++ ", ".toList ++ regName y ++ ", ".toList ++ [hexDigit n]
  | .skp x => "SKP ".toList ++ regName x
  | .sknp x => "SKNP ".toList ++ regName x
  | .ldDtRead x => "LD ".toList ++ regName x ++ ", DT".toList
  | .ldK x => "LD ".toList ++ regName x ++ ", K".toList
  | .ldDtWrite x => "LD DT, ".toList ++ regName x
  | .ldSt x => "LD ST, ".toList ++ regName x
  | .addI x => "ADD I, ".toList ++ regName x
  | .ldF x => "LD F, ".toList ++ regName x
  | .ldB x => "LD B, ".toList ++ regName x
  | .stRegs x => "LD [I], ".toList ++ regName x
  | .ldRegs x => "LD ".toList ++ regName x ++ ", [I]".toList

/-- The assembler text of a word: its instruction's, and `DW 0xhhhh` for an undefined word (R53). -/
def disassemble (op : Word) : List Char :=
  match decodeWord op with
  | .ok i => asmText i
  | .error _ =>
    "DW 0x".toList ++ [hexDigit (fieldT op), hexDigit (fieldX op), hexDigit (fieldY op), hexDigit (fieldN op)]

end Sys2Proof
end

