-- ==== Sys2Proof/Config.lean ====
section
/-! DEFINITION. The parameters of R6 as one record of plain data, and the two draws as opaque constants. -/

namespace Sys2Proof

/-- `VF_ALIAS_ORDER` (R67, D6): in which order the five flag-writing ALU rows write VF and Vx. -/
inductive VfAliasOrder where
  /-- The statements run in the order the source writes them. -/
  | asWritten
  /-- Both operands are read first, Vx is written, and the flag is written last. -/
  | flagLast
deriving DecidableEq, Repr

/-- `UNDEFINED_SUBOP` (R49, D7): what the 17,488 undefined words do. -/
inductive UndefinedSubop where
  | nop
  | fault
deriving DecidableEq, Repr

/-- `COORD_POLICY` (R107, D9): what Dxyn does with a set bit outside the single-wrap contract. -/
inductive CoordPolicy where
  | fault
  | modulo
deriving DecidableEq, Repr

/-- `KEY_RANGE_POLICY` (R91, D11): which key Ex9E and ExA1 read when Vx is above 15. -/
inductive KeyRangePolicy where
  | draw
  | notPressed
  | lowNibble
deriving DecidableEq, Repr

/-- `ADDR_POLICY` (R31, D1): what an access at an address above 0xFFF does. -/
inductive AddrPolicy where
  | wrap
  | fault
deriving DecidableEq, Repr

/-- The open parameters of R6. DESIGN CHOICE (assumption 1): they are plain data that State carries and no step writes
(R28), so that every statement about all states covers every value of every parameter. -/
structure Params where
  /-- `CYCLES_PER_TICK`: what the host passes to a tick of its own accord (assumption 3); R103 takes it as an argument. -/
  cyclesPerTick  : Nat
  /-- `STACK_CAPACITY`, positive (R54, D8). -/
  stackCapacity  : Nat
  /-- `FONT_TABLE`, 80 bytes (R120, D19). -/
  fontTable      : Vector Byte 80
  vfAliasOrder   : VfAliasOrder
  undefinedSubop : UndefinedSubop
  coordPolicy    : CoordPolicy
  keyRangePolicy : KeyRangePolicy
  addrPolicy     : AddrPolicy
deriving DecidableEq, Repr

/-- The draw `rand8` (R6, R79, D13): the n-th draw is some byte, about which nothing is known. A free value: it has no
body, so no proof can rest on its value (assumption 5). -/
opaque Config.rand8 : Nat → Byte

/-- The draw `keydraw` (R6, R91, D11): the n-th draw is some bit, about which nothing is known (assumption 6). -/
opaque Config.keydraw : Nat → Bool

end Sys2Proof
end

