-- ==== Sys2Proof/Machine/Defaults.lean ====
section
/-! DEFINITION. The default values of the parameters of R6. -/

namespace Sys2Proof.Machine

/-- The default `FONT_TABLE` of R120: glyph d at bytes 5d to 5d+4. -/
def defaultFont : Vector Byte 80 :=
  #v[0xF0, 0x90, 0x90, 0x90, 0xF0,
     0x20, 0x60, 0x20, 0x20, 0x70,
     0xF0, 0x10, 0xF0, 0x80, 0xF0,
     0xF0, 0x10, 0xF0, 0x10, 0xF0,
     0x90, 0x90, 0xF0, 0x10, 0x10,
     0xF0, 0x80, 0xF0, 0x10, 0xF0,
     0xF0, 0x80, 0xF0, 0x90, 0xF0,
     0xF0, 0x10, 0x20, 0x40, 0x40,
     0xF0, 0x90, 0xF0, 0x90, 0xF0,
     0xF0, 0x90, 0xF0, 0x10, 0xF0,
     0xF0, 0x90, 0xF0, 0x90, 0x90,
     0xE0, 0x90, 0xE0, 0x90, 0xE0,
     0xF0, 0x80, 0x80, 0x80, 0xF0,
     0xE0, 0x90, 0x90, 0x90, 0xE0,
     0xF0, 0x80, 0xF0, 0x80, 0xF0,
     0xF0, 0x80, 0xF0, 0x80, 0x80]

/-- The default column of R6. -/
def defaultParams : Params where
  cyclesPerTick  := 10
  stackCapacity  := 16
  fontTable      := defaultFont
  vfAliasOrder   := .asWritten
  undefinedSubop := .nop
  coordPolicy    := .fault
  keyRangePolicy := .draw
  addrPolicy     := .wrap

/-- `PROGRAM_BASE` (R5): the load address of the program and the reset value of pc (R29, C1). -/
def programBase : Nat := 0x200

end Sys2Proof.Machine
end

