-- ==== Sys2Proof/Machine/State.lean ====
section
/-! DEFINITION. Every piece of state the spec gives the core (10_state.md), as plain data; the state after construction
(R29); the outcomes a step can have besides a next state. -/

namespace Sys2Proof.Machine

/-- The faults of R96; the numeric code of each is `faultNumber` in Machine/Ops.lean. -/
inductive FaultCode where
  /-- Code 1, answered by loadProgram to the host; it never enters the latch (R96). -/
  | programTooLarge
  /-- Code 2, 00EE with an empty stack (R55). -/
  | stackUnderflow
  /-- Code 3, an undefined word under `UNDEFINED_SUBOP = fault` (R49). -/
  | unknownOpcode
  /-- Code 4, 2nnn with a full stack (R54). -/
  | stackOverflow
  /-- Code 5, Dxyn under `COORD_POLICY = fault` (R90, R107). -/
  | coordinateOutOfContract
  /-- Code 6, an address above 0xFFF under `ADDR_POLICY = fault` (R31). -/
  | addressOutOfRange
deriving DecidableEq, Repr

/-- The `info` field of a fault record, per code (R96). -/
inductive FaultInfo where
  | none
  /-- The length of the rejected program. -/
  | length (n : Nat)
  /-- The coordinates before wrapping. -/
  | coords (x y : Int)
  /-- The address, before any reduction. -/
  | address (a : Nat)
deriving DecidableEq, Repr

/-- A fault record (R95). -/
structure FaultRecord where
  code   : FaultCode
  /-- The address of the instruction, or of the fetch, that faulted. -/
  pc     : Word
  /-- The fetched opcode; `none` when the fetch itself faulted. -/
  opcode : Option Word
  info   : FaultInfo
deriving DecidableEq, Repr

/-- What the host can do to the core: the rows of R114. A key index is a plain number, since the host could name one
outside 0..15; such an event is refused (R115). -/
inductive HostEvent where
  | construct
  | loadFont
  | loadProgram (bytes : List Byte)
  | tick (cpt : Nat)
  | keyDown (k : Nat)
  | keyUp (k : Nat)
  | onKeyPress (k : Nat)
  | readDisplay
  | readTone
  | readFault
deriving DecidableEq, Repr

/-- What the host gets back: the fourth column of R114. -/
inductive HostReply where
  /-- The core is new (R119). -/
  | constructed
  /-- loadProgram copied the bytes (R122). -/
  | loadOk
  /-- loadProgram rejected a program of this length; no state changed (R122, R96). -/
  | programTooLarge (len : Nat)
  /-- The frame signal at the end of a tick (R106). -/
  | frameReady
  /-- The display as (x, y, isOn) (R110), in the order of assumption 18. -/
  | display (cells : List (Nat × Nat × Bool))
  | tone (on : Bool)
  | fault (latch : Option FaultRecord)
deriving DecidableEq, Repr

/-- The machine's state: the fields of R9 and 10_state.md, then the parameters and the model's own bookkeeping. -/
structure State where
  /-- `mem` (R13), a canonical list of cells (Machine/Ops.lean, `memWf`); an unlisted cell holds 0x00 (R29). -/
  mem       : List Host.Cell
  /-- `V[0..15]` (R14); `V[15]` is VF (R15). -/
  v         : Vector Byte 16
  /-- `I` (R16). -/
  i         : Word
  /-- `pc` (R17). -/
  pc        : Word
  /-- `stack` (R18), the most recently pushed value last, as R54 writes it. -/
  stack     : List Word
  /-- `DT` (R19). -/
  dt        : Byte
  /-- `ST` (R19). -/
  st        : Byte
  /-- `disp` (R20): cell y*64+x is the pixel at column x, row y. -/
  disp      : Vector Bool 2048
  /-- `key` (R21). -/
  keys      : Vector Bool 16
  /-- `paused` (R22). -/
  paused    : Bool
  /-- `wait_reg` (R23): the spec's own `none` or register index. -/
  waitReg   : Option Nibble
  /-- `fault` (R24): the spec's own `none` or fault record. -/
  fault     : Option FaultRecord
  /-- `tone` (R25). -/
  tone      : Bool
  /-- The parameters of R6, which no step writes (R28). DESIGN CHOICE (assumption 1): carried here as data. -/
  params    : Params
  /-- The batch position (R27): `none` between ticks; `some n` inside a tick whose loop (R103) has n turns left.
  DESIGN CHOICE (assumption 2). -/
  batch     : Option Nat
  /-- The host's interactions still to come, the next one first (R114). DESIGN CHOICE (assumption 3). -/
  inputs    : List HostEvent
  /-- What the host got back so far, the oldest first (R114). DESIGN CHOICE (assumption 4). -/
  outputs   : List HostReply
  /-- How many draws of `rand8` were taken (R79, D13). DESIGN CHOICE (assumption 5). -/
  randDraws : Nat
  /-- How many draws of `keydraw` were taken (R91, D11). DESIGN CHOICE (assumption 6). -/
  keyDraws  : Nat
deriving DecidableEq, Repr

/-- No step of this core ends in a fault outcome: a fatal error of the spec is a NEXT state with the fault latch set
(R24, R97), and a tick of a halted core returns with nothing changed (R103). So this type has no constructor (assumption 7).
Safe and unsafe do not arise: nothing raises it. -/
inductive Fault where
deriving DecidableEq, Repr

/-- What the model gives no step: the host events of R115, and an instruction without a meaning. -/
inductive Refusal where
  /-- Raised by an arm of `exec` for an instruction that has no meaning yet; no arm raises it. Safe. -/
  | notModelled (mnemonic : String)
  /-- Raised by `hostEvent` for keyDown, keyUp or onKeyPress with k outside 0..15 (R115). Safe: nothing is claimed. -/
  | keyIndexOutOfRange (k : Nat)
  /-- Raised by `hostEvent` for any event during a tick (R115). Safe: nothing is claimed. -/
  | hostEventDuringTick
deriving DecidableEq, Repr

/-- Construction (R119): every state element at its value in R29, for the given parameters. -/
def State.construct (params : Params) : State where
  mem       := []
  v         := Vector.replicate 16 0
  i         := 0
  pc        := BitVec.ofNat 16 programBase
  stack     := []
  dt        := 0
  st        := 0
  disp      := Vector.replicate 2048 false
  keys      := Vector.replicate 16 false
  paused    := false
  waitReg   := none
  fault     := none
  tone      := false
  params    := params
  batch     := none
  inputs    := []
  outputs   := []
  randDraws := 0
  keyDraws  := 0

/-- The machine right after construction (R29, R119), with the default parameters of R6. -/
def State.reset : State := State.construct defaultParams

end Sys2Proof.Machine
end

