-- ==== Sys2Proof/Machine/Ops.lean ====
section
/-! DEFINITION. The named operations over memory, registers and the stack (R10), and raising a fault (R97). -/

namespace Sys2Proof.Machine

/-- What an instruction or a host event answers. -/
abbrev Outcome := Host.Outcome State Fault Refusal

/-! ### Memory (20_memory.md) -/

/-- `MEM_SIZE` (R5). -/
def memSize : Nat := 4096

/-- What a cell that no entry lists reads as: memory is created zeroed (R29). -/
def emptyCell : Byte := 0

/-- The byte of cell `a` in a list of cells. -/
def cellRead : List Host.Cell → Nat → Byte
  | [], _ => emptyCell
  | (b, v) :: rest, a => if a = b then v else cellRead rest a

/-- The list without an entry for cell `a`. -/
def cellErase (m : List Host.Cell) (a : Nat) : List Host.Cell := m.filter fun c => c.1 != a

/-- The list with the entry `(a, v)` at its place in rising order, in the stead of one `a` had. -/
def cellInsert : List Host.Cell → Nat → Byte → List Host.Cell
  | [], a, v => [(a, v)]
  | (b, w) :: rest, a, v =>
    if a < b then (a, v) :: (b, w) :: rest
    else if a = b then (a, v) :: rest
    else (b, w) :: cellInsert rest a v

/-- Writing one cell keeps the canonical form: the value an unlisted cell reads as is not listed. -/
def cellWrite (m : List Host.Cell) (a : Nat) (v : Byte) : List Host.Cell :=
  if v = emptyCell then cellErase m a else cellInsert m a v

/-- Every entry lies at or above `lo`, below `memSize`, in strictly rising order, and lists no empty cell. -/
def memWfFrom : Nat → List Host.Cell → Bool
  | _, [] => true
  | lo, (a, v) :: rest => decide (lo ≤ a) && decide (a < memSize) && decide (v ≠ emptyCell) && memWfFrom (a + 1) rest

/-- The canonical form of memory: equal memories are equal lists (DESIGN CHOICE, assumption 13). -/
def memWf (m : List Host.Cell) : Bool := memWfFrom 0 m

/-- Whether forming the address `a` raises AddressOutOfRange (R31). -/
def addrFaults (p : AddrPolicy) (a : Nat) : Bool :=
  match p with
  | .wrap => false
  | .fault => decide (0xFFF < a)

/-- The first of the addresses `base`, …, `base + count - 1` that raises AddressOutOfRange, if any does: an instruction
reduces every address it will use before it reads or writes any, in increasing order (R39). -/
def firstBadAddr (p : AddrPolicy) (base count : Nat) : Option Nat :=
  ((List.range count).map (base + ·)).find? (addrFaults p)

/-- The cell an address that raises nothing reaches (R31): `a mod 4096`, which is `a` itself up to 0xFFF. -/
def cellOf (a : Nat) : Nat := a % memSize

/-- `MemRead(a, 1)` (R32), once the address was checked. -/
def memRead (s : State) (a : Nat) : Byte := cellRead s.mem (cellOf a)

/-- `MemWrite(a, 1, v)` (R33), once the address was checked. -/
def memWrite (s : State) (a : Nat) (v : Byte) : State := { s with mem := cellWrite s.mem (cellOf a) v }

/-- The bytes at `base`, …, `base + count - 1`. -/
def readBytes (s : State) (base count : Nat) : List Byte := (List.range count).map fun k => memRead s (base + k)

/-- The bytes written at `base`, `base + 1`, … in increasing order (R39). -/
def storeBytes : State → Nat → List Byte → State
  | s, _, [] => s
  | s, a, b :: rest => storeBytes (memWrite s a b) (a + 1) rest

/-! ### Registers (10_state.md) -/

/-- `V[x]` (R14). -/
def readV (s : State) (x : Nibble) : Byte := s.v[x.toNat]'x.isLt

/-- `V[x] <- b` (R14). No register is hardwired. -/
def writeV (s : State) (x : Nibble) (b : Byte) : State := { s with v := s.v.set x.toNat b x.isLt }

/-- The index of VF, `V[15]` (R15). -/
def vf : Nibble := 15

/-- `V[k] <- b`, `V[k+1] <- …`, in increasing order (R85). -/
def writeRegs : State → Nat → List Byte → State
  | s, _, [] => s
  | s, k, b :: rest => writeRegs (writeV s (BitVec.ofNat 4 k) b) (k + 1) rest

/-- `V[0]`, …, `V[count - 1]` (R84). -/
def readRegs (s : State) (count : Nat) : List Byte := (List.range count).map fun k => readV s (BitVec.ofNat 4 k)

/-- The step's own advance of pc by 2, modulo 2^16 (R51). -/
def advance (s : State) : State := { s with pc := s.pc + 2 }

/-- `p`, the address of the executing instruction: the step has already advanced pc past it (R51; DEDUCED,
assumption 12). -/
def instrAddr (s : State) : Word := s.pc - 2

/-- A taken skip: one further advance of 2, the skipped word is not fetched (R52). -/
def skipIf (c : Bool) (s : State) : State := { s with pc := if c then s.pc + 2 else s.pc }

/-! ### The call stack (R54, R55) -/

/-- `push(v)` (R54); `none` is StackOverflow. -/
def push (s : State) (v : Word) : Option State :=
  if s.stack.length = s.params.stackCapacity then none else some { s with stack := s.stack ++ [v] }

/-- `pop()` (R55): the last element and the stack without it; `none` is StackUnderflow. -/
def pop (s : State) : Option (Word × State) :=
  match s.stack.getLast? with
  | some v => some (v, { s with stack := s.stack.dropLast })
  | none => none

/-! ### Raising a fault (R95 to R98) -/

/-- The numeric code of a fault (R96). -/
def faultNumber : FaultCode → Nat
  | .programTooLarge => 1
  | .stackUnderflow => 2
  | .unknownOpcode => 3
  | .stackOverflow => 4
  | .coordinateOutOfContract => 5
  | .addressOutOfRange => 6

/-- Setting the fault latch (R97). It writes nothing else. -/
def latchFault (code : FaultCode) (p : Word) (opcode : Option Word) (info : FaultInfo) (s : State) : State :=
  { s with fault := some { code := code, pc := p, opcode := opcode, info := info } }

/-- `raise F(info)` inside the instruction whose opcode is `op` (R97): a next state in which only the latch is new. pc
stays at p + 2 (D26). The tick ends at its next turn, which sees the latch (R103, `tickTurn`). There is no vector, no
handler and no return (R99, R100). -/
def raise (op : Word) (code : FaultCode) (info : FaultInfo) (s : State) : Outcome :=
  .next (latchFault code (instrAddr s) (some op) info s)

end Sys2Proof.Machine
end

