-- ==== Sys2Proof/Machine/Flags.lean ====
section
/-! DEFINITION. The flags written into VF (R15) and the order of the VF write (R67). -/

namespace Sys2Proof.Machine

/-- A flag as the value written to VF: 0 or 1 (R66). -/
def flagByte (c : Bool) : Byte := if c then 1 else 0

/-- 8xy4: the carry out of bit 7, 1 iff the sum is above 255 (R74). -/
def carryFlag (a b : Byte) : Byte := flagByte (decide (255 < a.toNat + b.toNat))

/-- 8xy5 and 8xy7: 1 iff the minuend is strictly greater (R75, R77). -/
def greaterFlag (a b : Byte) : Byte := flagByte (decide (b.toNat < a.toNat))

/-- 8xy6: bit 0 before the shift (R76). -/
def shrFlag (a : Byte) : Byte := a &&& 0x01

/-- 8xyE: bit 7 before the shift, as 0 or 1 (R78). -/
def shlFlag (a : Byte) : Byte := flagByte (decide (a &&& 0x80 ≠ 0))

/-- The two writes of 8xy5, 8xy6, 8xy7 and 8xyE in the order `VF_ALIAS_ORDER` selects (R67): as written, VF is written
first and the result reads the registers after that write; flag last, both come from the old values. -/
def flagAndResult (flag result : Byte → Byte → Byte) (x y : Nibble) (s : State) : State :=
  match s.params.vfAliasOrder with
  | .asWritten =>
    let s1 := writeV s vf (flag (readV s x) (readV s y))
    writeV s1 x (result (readV s1 x) (readV s1 y))
  | .flagLast =>
    writeV (writeV s x (result (readV s x) (readV s y))) vf (flag (readV s x) (readV s y))

/-- The two writes of 8xy4 (R74): the sum is taken from the operands before any write under both settings. -/
def sumThenFlag (x y : Nibble) (s : State) : State :=
  let sum := readV s x + readV s y
  let carry := carryFlag (readV s x) (readV s y)
  match s.params.vfAliasOrder with
  | .asWritten => writeV (writeV s vf carry) x sum
  | .flagLast => writeV (writeV s x sum) vf carry

end Sys2Proof.Machine
end

