-- ==== Sys2Proof/Machine/Operands.lean ====
section
/-! DEFINITION. The operand forms of R47 and the values the instructions form from them. The forms Vx and Vy are `readV`
and `writeV` of Machine/Ops.lean; the immediates kk and n are used as they are. -/

namespace Sys2Proof.Machine

/-- `zext_16(nnn)` (R46). -/
def addrImm (nnn : Addr12) : Word := nnn.setWidth 16

/-- `zext_16(V[x])` (R60, R81, R82). -/
def regWord (s : State) (x : Nibble) : Word := (readV s x).setWidth 16

/-- The form V0 of Bnnn, fixed by the opcode (R47, R60). -/
def v0 : Nibble := 0

/-- I as the base of a memory access: the natural number, not reduced (R31). -/
def baseI (s : State) : Nat := s.i.toNat

/-- How many registers Fx55 and Fx65 move: x is the highest register index (R47). -/
def regCount (x : Nibble) : Nat := x.toNat + 1

/-- The three decimal digits of a byte: hundreds, tens, ones (R83). -/
def bcdDigits (b : Byte) : List Byte :=
  [BitVec.ofNat 8 (b.toNat / 100), BitVec.ofNat 8 (b.toNat / 10 % 10), BitVec.ofNat 8 (b.toNat % 10)]

/-- `isPressed(k)` for k in 0..15 (R112). -/
def isPressed (s : State) (k : Nibble) : Bool := s.keys[k.toNat]'k.isLt

/-- `draw rand8` (R79, D13): a fresh free byte, and the state with the draw taken. -/
def drawRand (s : State) : Byte × State := (Config.rand8 s.randDraws, { s with randDraws := s.randDraws + 1 })

/-- `draw keydraw` (R91, D11): a fresh free bit, and the state with the draw taken. -/
def drawKey (s : State) : Bool × State := (Config.keydraw s.keyDraws, { s with keyDraws := s.keyDraws + 1 })

/-- `key_of(v)` (R91): the key named by a register's value, and the state after any draw. -/
def keyOf (s : State) (v : Byte) : Bool × State :=
  if v ≤ 15 then (isPressed s (v.setWidth 4), s)
  else match s.params.keyRangePolicy with
    | .draw => drawKey s
    | .notPressed => (false, s)
    | .lowNibble => (isPressed s (v.setWidth 4), s)

end Sys2Proof.Machine
end

