-- ==== Sys2Proof/Machine/Alu.lean ====
section
/-! DEFINITION. 43_alu.md: loads, bitwise operations, add, subtract, shifts, random. -/

namespace Sys2Proof.Machine

/-- 6xkk (R68). -/
def execLdImm (x : Nibble) (kk : Byte) (s : State) : Outcome := .next (writeV s x kk)

/-- 7xkk (R69): the sum wraps and VF is not written. -/
def execAddImm (x : Nibble) (kk : Byte) (s : State) : Outcome := .next (writeV s x (readV s x + kk))

/-- 8xy0 (R70). -/
def execLdReg (x y : Nibble) (s : State) : Outcome := .next (writeV s x (readV s y))

/-- 8xy1 (R71). -/
def execOr (x y : Nibble) (s : State) : Outcome := .next (writeV s x (readV s x ||| readV s y))

/-- 8xy2 (R72). -/
def execAnd (x y : Nibble) (s : State) : Outcome := .next (writeV s x (readV s x &&& readV s y))

/-- 8xy3 (R73). -/
def execXor (x y : Nibble) (s : State) : Outcome := .next (writeV s x (readV s x ^^^ readV s y))

/-- 8xy4 (R74). -/
def execAddReg (x y : Nibble) (s : State) : Outcome := .next (sumThenFlag x y s)

/-- 8xy5 (R75): the flag compares Vx > Vy, the result is Vx - Vy. -/
def execSub (x y : Nibble) (s : State) : Outcome := .next (flagAndResult greaterFlag (fun a b => a - b) x y s)

/-- 8xy6 (R76): Vx is shifted; y is not read. -/
def execShr (x y : Nibble) (s : State) : Outcome :=
  .next (flagAndResult (fun a _ => shrFlag a) (fun a _ => a >>> (1 : Nat)) x y s)

/-- 8xy7 (R77): the flag compares Vy > Vx, the result is Vy - Vx. -/
def execSubn (x y : Nibble) (s : State) : Outcome :=
  .next (flagAndResult (fun a b => greaterFlag b a) (fun a b => b - a) x y s)

/-- 8xyE (R78): Vx is shifted; y is not read. -/
def execShl (x y : Nibble) (s : State) : Outcome :=
  .next (flagAndResult (fun a _ => shlFlag a) (fun a _ => a <<< (1 : Nat)) x y s)

/-- Cxkk (R79): a fresh draw of rand8, masked by kk. -/
def execRnd (x : Nibble) (kk : Byte) (s : State) : Outcome :=
  .next (writeV (drawRand s).2 x ((drawRand s).1 &&& kk))

end Sys2Proof.Machine
end

