-- ==== Sys2Proof/Machine/ControlFlow.lean ====
section
/-! DEFINITION. 41_control_flow.md: SYS, RET, JP, CALL, JP_V0. pc already holds p + 2 (R51). -/

namespace Sys2Proof.Machine

/-- 00EE (R56): `pc <- pop()`. -/
def execRet (s : State) : Outcome :=
  match pop s with
  | none => raise (encode .ret) .stackUnderflow .none s
  | some (v, t) => .next { t with pc := v }

/-- 0nnn other than 00E0 and 00EE (R57): nothing; nnn is not used. -/
def execSys (_nnn : Addr12) (s : State) : Outcome := .next s

/-- 1nnn (R58): `pc <- nnn`. -/
def execJp (nnn : Addr12) (s : State) : Outcome := .next { s with pc := addrImm nnn }

/-- 2nnn (R59): `push(pc)`, the return address p + 2, then `pc <- nnn`. -/
def execCall (nnn : Addr12) (s : State) : Outcome :=
  match push s s.pc with
  | none => raise (encode (.call nnn)) .stackOverflow .none s
  | some t => .next { t with pc := addrImm nnn }

/-- Bnnn (R60): `pc <- nnn + V0`, at most 0x10FE, not reduced. -/
def execJpV0 (nnn : Addr12) (s : State) : Outcome := .next { s with pc := addrImm nnn + regWord s v0 }

end Sys2Proof.Machine
end

