-- ==== Sys2Proof/Machine/Display.lean ====
section
/-! DEFINITION. The display buffer device: setPixel, drawSprite, clearDisplay and the render read (R107 to R110). -/

namespace Sys2Proof.Machine

/-- `COLS` (R5). -/
def cols : Nat := 64

/-- `ROWS` (R5). -/
def rows : Nat := 32

/-- `in_contract(v, size)` (R107). -/
def inContract (v : Int) (size : Nat) : Bool := decide (-(size : Int) ≤ v ∧ v < 2 * size)

/-- `wrap1(v, size)` (R107): a single correction. -/
def wrapOnce (v : Int) (size : Nat) : Int :=
  if (size : Int) ≤ v then v - size
  else if v < 0 then v + size
  else v

/-- `coord(v, size)` (R107). The remainder is reached only under `COORD_POLICY = modulo`: under `fault`, Dxyn raises first
(DEDUCED, assumption 10). -/
def coord (v : Int) (size : Nat) : Nat :=
  (if inContract v size then wrapOnce v size else v % size).toNat

theorem coord_lt (v : Int) (size : Nat) (h : 0 < size) : coord v size < size := by
  unfold coord inContract wrapOnce
  have h0 : (size : Int) ≠ 0 := by omega
  have := Int.emod_nonneg v h0
  have := Int.emod_lt_of_pos v (show (0 : Int) < size by omega)
  split <;> rename_i hc
  · have hc := of_decide_eq_true hc
    split <;> [skip; split] <;> omega
  · omega

/-- The cell of a pixel, `cy * 64 + cx` (R20, R107). -/
def pixelCell (x y : Int) : Fin 2048 :=
  ⟨coord y rows * cols + coord x cols, by
    have := coord_lt y rows (by decide)
    have := coord_lt x cols (by decide)
    unfold rows cols at *
    omega⟩

/-- `setPixel(x, y)` (R107): the toggled display, and whether the pixel went from on to off. -/
def setPixel (d : Vector Bool 2048) (x y : Int) : Vector Bool 2048 × Bool :=
  let c := pixelCell x y
  let old := d[c]
  (d.set c (!old), old)

/-- The set bits of one sprite row at (x, y), as pixels: bit 7 is the leftmost column (R108, D10). -/
def rowPixels (x y : Int) (row : Byte) : List (Int × Int) :=
  ((List.range 8).filter fun c => row.getLsbD (7 - c)).map fun (c : Nat) => (x + c, y)

/-- The set bits of a sprite, row by row and column by column (R90, R108). -/
def spritePixels (x : Int) : Int → List Byte → List (Int × Int)
  | _, [] => []
  | y, row :: rest => rowPixels x y row ++ spritePixels x (y + 1) rest

/-- setPixel on each pixel in list order, with the OR of the collisions (R90, R108). -/
def drawPixels : Vector Bool 2048 → List (Int × Int) → Vector Bool 2048 × Bool
  | d, [] => (d, false)
  | d, (x, y) :: rest =>
    let r := setPixel d x y
    let q := drawPixels r.1 rest
    (q.1, r.2 || q.2)

/-- `drawSprite(x, y, bytes)` (R108). -/
def drawSprite (d : Vector Bool 2048) (x y : Int) (bytes : List Byte) : Vector Bool 2048 × Bool :=
  drawPixels d (spritePixels x y bytes)

/-- Whether a pixel is out of the single-wrap contract (R107). -/
def outOfContract (px : Int × Int) : Bool := !(inContract px.1 cols && inContract px.2 rows)

/-- The first pixel that raises CoordinateOutOfContract, in list order, if any does (R90). -/
def firstBadPixel (p : CoordPolicy) (pixels : List (Int × Int)) : Option (Int × Int) :=
  match p with
  | .fault => pixels.find? outOfContract
  | .modulo => none

/-- `clearDisplay()` (R109). -/
def clearDisplay (s : State) : State := { s with disp := Vector.replicate 2048 false }

/-- The render interface: read-only iteration over (x, y, isOn) (R110). DESIGN CHOICE (assumption 18): the order, which R110
leaves open, is that of the cells of `disp` (R20), row by row with x the faster. -/
def render (s : State) : List (Nat × Nat × Bool) :=
  (List.range 2048).map fun c => (c % cols, c / cols, s.disp.getD c false)

end Sys2Proof.Machine
end

