-- ==== Sys2Proof/Machine/DisplayInstr.lean ====
section
/-! DEFINITION. 46_display.md: 00E0 and Dxyn. -/

namespace Sys2Proof.Machine

/-- 00E0 (R89): VF is not written. -/
def execCls (s : State) : Outcome := .next (clearDisplay s)

/-- The pixels Dxyn would toggle: the set bits of the n rows at I, from the origin (Vx, Vy) (R90). -/
def drwPixels (x y n : Nibble) (s : State) : List (Int × Int) :=
  spritePixels (readV s x).toNat (readV s y).toNat (readBytes s (baseI s) n.toNat)

/-- Dxyn (R90): addresses are checked before coordinates (R98), both before any write; the origin is read before VF is
written; VF is the collision flag. -/
def execDrw (x y n : Nibble) (s : State) : Outcome :=
  match firstBadAddr s.params.addrPolicy (baseI s) n.toNat with
  | some a => raise (encode (.drw x y n)) .addressOutOfRange (.address a) s
  | none =>
    match firstBadPixel s.params.coordPolicy (drwPixels x y n s) with
    | some (px, py) => raise (encode (.drw x y n)) .coordinateOutOfContract (.coords px py) s
    | none =>
      let r := drawSprite s.disp (readV s x).toNat (readV s y).toNat (readBytes s (baseI s) n.toNat)
      .next (writeV { s with disp := r.1 } vf (flagByte r.2))

end Sys2Proof.Machine
end

