-- ==== Sys2Proof/Machine/IndexMemory.lean ====
section
/-! DEFINITION. 44_index_memory.md: the writes of I and the transfers through I. I is never changed by an access. -/

namespace Sys2Proof.Machine

/-- Annn (R80). -/
def execLdI (nnn : Addr12) (s : State) : Outcome := .next { s with i := addrImm nnn }

/-- Fx1E (R81): modulo 2^16, VF not written. -/
def execAddI (x : Nibble) (s : State) : Outcome := .next { s with i := s.i + regWord s x }

/-- Fx29 (R82): Vx is not masked. -/
def execLdF (x : Nibble) (s : State) : Outcome := .next { s with i := regWord s x * 5 }

/-- Fx33 (R83). -/
def execLdB (x : Nibble) (s : State) : Outcome :=
  match firstBadAddr s.params.addrPolicy (baseI s) 3 with
  | some a => raise (encode (.ldB x)) .addressOutOfRange (.address a) s
  | none => .next (storeBytes s (baseI s) (bcdDigits (readV s x)))

/-- Fx55 (R84). -/
def execStRegs (x : Nibble) (s : State) : Outcome :=
  match firstBadAddr s.params.addrPolicy (baseI s) (regCount x) with
  | some a => raise (encode (.stRegs x)) .addressOutOfRange (.address a) s
  | none => .next (storeBytes s (baseI s) (readRegs s (regCount x)))

/-- Fx65 (R85). -/
def execLdRegs (x : Nibble) (s : State) : Outcome :=
  match firstBadAddr s.params.addrPolicy (baseI s) (regCount x) with
  | some a => raise (encode (.ldRegs x)) .addressOutOfRange (.address a) s
  | none => .next (writeRegs s 0 (readBytes s (baseI s) (regCount x)))

end Sys2Proof.Machine
end

