-- ==== Sys2Proof/Machine/Keys.lean ====
section
/-! DEFINITION. 47_keyboard.md: Ex9E, ExA1, Fx0A. -/

namespace Sys2Proof.Machine

/-- Ex9E (R92). -/
def execSkp (x : Nibble) (s : State) : Outcome :=
  let r := keyOf s (readV s x)
  .next (skipIf r.1 r.2)

/-- ExA1 (R93). -/
def execSknp (x : Nibble) (s : State) : Outcome :=
  let r := keyOf s (readV s x)
  .next (skipIf (!r.1) r.2)

/-- Fx0A (R94): the core pauses; Vx is written by the key-press event that ends the wait (R113). -/
def execLdK (x : Nibble) (s : State) : Outcome := .next { s with paused := true, waitReg := some x }

end Sys2Proof.Machine
end

