-- ==== Sys2Proof/Machine/Skips.lean ====
section
/-! DEFINITION. 42_skips.md: SE and SNE, immediate and register forms. -/

namespace Sys2Proof.Machine

/-- 3xkk (R62). -/
def execSeImm (x : Nibble) (kk : Byte) (s : State) : Outcome := .next (skipIf (readV s x == kk) s)

/-- 4xkk (R63). -/
def execSneImm (x : Nibble) (kk : Byte) (s : State) : Outcome := .next (skipIf (readV s x != kk) s)

/-- 5xy0 (R64). -/
def execSeReg (x y : Nibble) (s : State) : Outcome := .next (skipIf (readV s x == readV s y) s)

/-- 9xy0 (R65). -/
def execSneReg (x y : Nibble) (s : State) : Outcome := .next (skipIf (readV s x != readV s y) s)

end Sys2Proof.Machine
end

