-- ==== Sys2Proof/Machine/Timers.lean ====
section
/-! DEFINITION. 45_timers.md: Fx07, Fx15, Fx18. -/

namespace Sys2Proof.Machine

/-- Fx07 (R86). -/
def execLdDtRead (x : Nibble) (s : State) : Outcome := .next (writeV s x s.dt)

/-- Fx15 (R87). -/
def execLdDtWrite (x : Nibble) (s : State) : Outcome := .next { s with dt := readV s x }

/-- Fx18 (R88): the tone bit does not change here. -/
def execLdSt (x : Nibble) (s : State) : Outcome := .next { s with st := readV s x }

end Sys2Proof.Machine
end

