-- ==== Sys2Proof/Machine/Cycle.lean ====
section
/-! DEFINITION. The step of R51 (fetch, advance, decode, execute) and the tick of R103 with its timer decrement, tone
update and frame signal (R104 to R106). -/

namespace Sys2Proof.Machine

/-- The opcode at pc: the bytes at p and p + 1, formed on integers, big-endian (R36). -/
def fetchWord (s : State) : Word := wordOfBytes (memRead s s.pc.toNat) (memRead s (s.pc.toNat + 1))

/-- An undefined word (R49): nothing, or UnknownOpcode, by `UNDEFINED_SUBOP`. -/
def execUndefined (op : Word) (s : State) : Outcome :=
  match s.params.undefinedSubop with
  | .nop => .next s
  | .fault => raise op .unknownOpcode .none s

/-- One step of the core (R51). A fault in the fetch leaves pc at p and records no opcode (R51, R95). -/
def cpuStep (s : State) : Outcome :=
  match firstBadAddr s.params.addrPolicy s.pc.toNat 2 with
  | some a => .next (latchFault .addressOutOfRange s.pc none (.address a) s)
  | none =>
    match decodeWord (fetchWord s) with
    | .ok i => exec i (advance s)
    | .error _ => execUndefined (fetchWord s) (advance s)

/-- `timer_decrement()` (R104): each timer by 1, never below 0. -/
def timerDecrement (s : State) : State :=
  { s with dt := if 0 < s.dt then s.dt - 1 else s.dt
           st := if 0 < s.st then s.st - 1 else s.st }

/-- `tone_update()` (R105). -/
def toneUpdate (s : State) : State := { s with tone := decide (0 < s.st) }

/-- `emit frame_ready` (R106). -/
def emitFrame (s : State) : State := { s with outputs := s.outputs ++ [.frameReady] }

/-- The end of a tick that does not fault (R103): the decrement when unpaused, then tone and frame always. -/
def finishTick (s : State) : State :=
  emitFrame (toneUpdate (if s.paused then s else timerDecrement s))

/-- The start of `tick(cpt)` (R103): a halted core does nothing; otherwise the loop begins with `cpt` turns. -/
def beginTick (cpt : Nat) (s : State) : State :=
  if s.fault.isSome then s else { s with batch := some cpt }

/-- What a tick with `n` turns of its loop left does next (R103). A latched fault ends the tick at once, with no
decrement, no tone update and no frame (R97); a paused core, or a loop with no turn left, goes to the tick's end;
otherwise one step runs. -/
def tickTurn (n : Nat) (s : State) : Outcome :=
  if s.fault.isSome then .next { s with batch := none }
  else if s.paused || n == 0 then .next (finishTick { s with batch := none })
  else cpuStep { s with batch := some (n - 1) }

/-- The loop of R103 as the spec writes it: up to `n` steps, the pause tested before each, ended by a fault. -/
def tickLoop : Nat → State → Outcome
  | 0, s => .next s
  | n + 1, s =>
    if s.paused then .next s
    else match cpuStep s with
      | .next t => if t.fault.isSome then .next t else tickLoop n t
      | .fault f => .fault f
      | .refused r => .refused r

/-- `tick(cpt)` of R103 as one indivisible operation. The machine's steps run it turn by turn (`beginTick`, `tickTurn`);
this is the spec's own text of it, for statements about whole ticks. -/
def wholeTick (cpt : Nat) (s : State) : Outcome :=
  if s.fault.isSome then .next s
  else match tickLoop cpt s with
    | .next t => .next (if t.fault.isSome then t else finishTick t)
    | .fault f => .fault f
    | .refused r => .refused r

end Sys2Proof.Machine
end

