-- ==== Sys2Proof/Machine/HostOps.lean ====
section
/-! DEFINITION. What the host can do to the core between ticks (R114): construction, the loads (70_reset_and_hazards.md),
the key map device (R111, R113) and the reads (R105, R97, R110). -/

namespace Sys2Proof.Machine

/-- A reply to the host. -/
def reply (r : HostReply) (s : State) : State := { s with outputs := s.outputs ++ [r] }

/-- Construction of a new core by the host (R119), with the parameters it has (R28). What the model keeps beside the core,
the host's list, the replies and how many draws were taken, goes on (DESIGN CHOICE, assumption 11). -/
def constructAgain (s : State) : State :=
  { State.construct s.params with
      inputs := s.inputs
      outputs := s.outputs ++ [.constructed]
      randDraws := s.randDraws
      keyDraws := s.keyDraws }

/-- `mem[a] <- b` for a run of cells in range (R121, R122). -/
def loadBytes : List Host.Cell → Nat → List Byte → List Host.Cell
  | m, _, [] => m
  | m, a, b :: rest => loadBytes (cellWrite m a b) (a + 1) rest

/-- `loadFont()` (R121): `FONT_TABLE` at address 0 and nothing else. -/
def loadFont (s : State) : State := { s with mem := loadBytes s.mem 0 s.params.fontTable.toList }

/-- `MAX_PROGRAM` (R5). -/
def maxProgram : Nat := memSize - programBase

/-- `loadProgram(bytes)` (R122): the bytes at 0x200, or ProgramTooLarge with no state changed but the reply. -/
def loadProgram (bytes : List Byte) (s : State) : State :=
  if maxProgram < bytes.length then reply (.programTooLarge bytes.length) s
  else reply .loadOk { s with mem := loadBytes s.mem programBase bytes }

/-- keyDown and keyUp for k in 0..15 (R111). -/
def setKey (k : Fin 16) (down : Bool) (s : State) : State := { s with keys := s.keys.set k down }

/-- `onKeyPress(k)` for k in 0..15 (R113): it ends a key wait, else nothing changes. -/
def onKeyPress (k : Fin 16) (s : State) : State :=
  match s.waitReg with
  | some x => { writeV s x (BitVec.ofNat 8 k) with waitReg := none, paused := false }
  | none => s

/-- A key event: k outside 0..15 is a host event the model gives no step (R115). -/
def keyEvent (k : Nat) (act : Fin 16 → State → State) (s : State) : Outcome :=
  if h : k < 16 then .next (act ⟨k, h⟩ s) else .refused (.keyIndexOutOfRange k)

/-- One interaction of the host (R114), on a halted core too (DEDUCED, assumption 16). Any event during a tick is refused
(R115, assumption 14). -/
def hostEvent (e : HostEvent) (s : State) : Outcome :=
  if s.batch.isSome then .refused .hostEventDuringTick
  else match e with
    | .construct => .next (constructAgain s)
    | .loadFont => .next (loadFont s)
    | .loadProgram bytes => .next (loadProgram bytes s)
    | .tick cpt => .next (beginTick cpt s)
    | .keyDown k => keyEvent k (fun j => setKey j true) s
    | .keyUp k => keyEvent k (fun j => setKey j false) s
    | .onKeyPress k => keyEvent k onKeyPress s
    | .readDisplay => .next (reply (.display (render s)) s)
    | .readTone => .next (reply (.tone s.tone) s)
    | .readFault => .next (reply (.fault s.fault) s)

/-- What the host does between ticks: the next interaction of its list; once the list is empty, it keeps calling tick
(R114 "the host's duty"; assumption 3). -/
def hostTurn (s : State) : Outcome :=
  match s.inputs with
  | e :: rest => hostEvent e { s with inputs := rest }
  | [] => hostEvent (.tick s.params.cyclesPerTick) s

/-- Placing one instruction for the very next step: its two bytes where the fetch reads them (R36), big-endian (R35), and
the core inside a tick with a turn left, unpaused and not halted (R103), as every step is. -/
def placeWord (op : Word) (s : State) : State :=
  { s with
      mem := cellWrite (cellWrite s.mem (cellOf s.pc.toNat) (highByte op)) (cellOf (s.pc.toNat + 1)) (lowByte op)
      batch := match s.batch with
        | some (n + 1) => some (n + 1)
        | _ => some (max 1 s.params.cyclesPerTick)
      paused := false
      waitReg := none
      fault := none }

end Sys2Proof.Machine
end

