-- ==== Sys2Proof/Machine/Step.lean ====
section
/-! DEFINITION. The machine's one step: a turn of the tick that is running (R103), or, between ticks, the host's next
interaction (R114). -/

namespace Sys2Proof.Machine

/-- One step of the machine. Inside a tick the host cannot act (R41, R103), so the core takes its turn; between ticks the
core does nothing of its own and the host takes its turn. -/
def step (s : State) : Host.Outcome State Fault Refusal :=
  match s.batch with
  | some n => tickTurn n s
  | none => hostTurn s

/-- `s` with the opcode-table word `w` stored where `step` fetches its next instruction, and in a tick (assumption 8). -/
def State.withFetchWord (s : State) (nbits w : Nat) : State := placeWord (tableWord nbits w) s

end Sys2Proof.Machine
end

