-- ==== Sys2Proof/Safety.lean ====
section
/-! DEFINITION. What counts as a safe state, and the words the statements use: halted, the invariant of the state, which
bytes and registers a next state shares with the one before. -/

namespace Sys2Proof.Machine

/-- The core is halted exactly when a fault is latched (R125). -/
def State.halted (s : State) : Bool := s.fault.isSome

/-- Inside a tick, unpaused, not halted, with a turn left: the next step of the machine is a step of the core (R51, R103). -/
def State.runs (s : State) (n : Nat) : Prop := s.batch = some (n + 1) ∧ s.paused = false ∧ s.fault = none

/-- A record the latch can hold (R95, R96): code, opcode and info fit together. loadProgram's ProgramTooLarge never enters
the latch. -/
def FaultRecord.ok (r : FaultRecord) : Bool :=
  match r.code, r.opcode, r.info with
  | .stackUnderflow, some op, .none => op == 0x00EE
  | .unknownOpcode, some op, .none => (decodeWord op matches .error _)
  | .stackOverflow, some op, .none => fieldT op == 0x2
  | .coordinateOutOfContract, some op, .coords x y => fieldT op == 0xD && decide (0 ≤ x) && decide (0 ≤ y) && decide (128 ≤ x ∨ 64 ≤ y)
  | .addressOutOfRange, some op, .address a =>
    decide (0xFFF < a) && (fieldT op == 0xD || (fieldT op == 0xF && (fieldKK op == 0x33 || fieldKK op == 0x55 || fieldKK op == 0x65)))
  | .addressOutOfRange, none, .address a => decide (0xFFF < a)
  | _, _, _ => false

/-- What every step keeps: memory in canonical form and inside its 4096 cells (R13); `wait_reg != none` exactly when
`paused = 1` (R23); the capacity positive and the depth within it (R18, D8); the latched record one that R96 allows; and
a halted core not paused (only an executing instruction raises, and none executes while paused, R103). -/
structure State.Inv (s : State) : Prop where
  mem       : memWf s.mem = true
  wait      : s.waitReg.isSome = s.paused
  capacity  : 0 < s.params.stackCapacity
  depth     : s.stack.length ≤ s.params.stackCapacity
  record    : s.fault.all FaultRecord.ok = true
  notPaused : s.fault.isSome = true → s.paused = false

/-- Every byte of memory reads the same (R32), for every cell number. -/
def SameBytes (s t : State) : Prop := ∀ a, cellRead t.mem a = cellRead s.mem a

/-- `t` is `s` but for V registers: memory, I, pc, the stack, the timers, the display, the keys, the wait, the latch, the
tone and everything else are the same. -/
def OnlyV (s t : State) : Prop := t = { s with v := t.v }

/-- Every V register outside `written` is unchanged. -/
def SameVExcept (s t : State) (written : List Nibble) : Prop := ∀ r, r ∉ written → readV t r = readV s r

/-- The word and the instruction stand for each other (R45, R48). -/
def Encodes (w : Word) (i : Instr) : Prop := decodeWord w = .ok i ∧ encode i = w

/-- The instruction completes from `s` by writing `b` into V[x] and nothing else at all: no flag, no other register, no
memory, not even pc, which the step has already advanced. -/
def WritesV (i : Instr) (s : State) (x : Nibble) (b : Byte) : Prop :=
  ∃ t, exec i s = .next t ∧ OnlyV s t ∧ readV t x = b ∧ SameVExcept s t [x]

/-- The `n` addresses from `base` on raise nothing under the state's `ADDR_POLICY` (R31, R39). -/
def AddrsOk (s : State) (base n : Nat) : Prop := s.params.addrPolicy = .wrap ∨ n = 0 ∨ base + n - 1 ≤ 0xFFF

/-- `raise F(info)` by an instruction with opcode `op` from `s`, whose pc is already past it: the latch is new, and nothing
else is (R95, R97). -/
def raised (s : State) (code : FaultCode) (op : Word) (info : FaultInfo) : State :=
  { s with fault := some { code := code, pc := s.pc - 2, opcode := some op, info := info } }

/-- Bit 7 - c of the sprite row r at I: the pixel in column c of that row (R90, R108). -/
def spriteBit (s : State) (r c : Nat) : Bool := (memRead s (baseI s + r)).getLsbD (7 - c)

/-- Dxyn from `s` has a set bit that lands in the display cell `cell`, wrapped into the grid (R90, R107). -/
def SpriteHits (s : State) (x y n : Nibble) (cell : Nat) : Prop :=
  ∃ r c, r < n.toNat ∧ c < 8 ∧ spriteBit s r c = true ∧
    cell = ((readV s y).toNat + r) % 32 * 64 + ((readV s x).toNat + c) % 64

/-- The set bit in column c of row r lands within the single-wrap contract, before wrapping (R107). -/
def BitInContract (s : State) (x y : Nibble) (r c : Nat) : Prop :=
  (readV s x).toNat + c < 128 ∧ (readV s y).toNat + r < 64

/-- Every set bit of the sprite lands in contract, or `COORD_POLICY` gives the others a place (R90, R107). -/
def CoordsOk (s : State) (x y n : Nibble) : Prop :=
  s.params.coordPolicy = .modulo ∨
    ∀ r c, r < n.toNat → c < 8 → spriteBit s r c = true → BitInContract s x y r c

end Sys2Proof.Machine
end

