-- ==== Sys2Proof/Certificates/Slice0/Obligations.lean ====
section
/-! DEFINITION. The statements for the provers, by the rules of spec/ they formalise. -/

open Sys2Proof Sys2Proof.Machine

/-! ### Encoding (30_encoding.md) -/

/-- Decoding the two bytes of a well-formed instruction, whatever follows them, gives it back and consumes exactly 2 bytes
(R44, R45, R48). -/
def Obligations.DecodeOfEncodeIsTheInstruction : Prop :=
  ∀ (i : Instr) (rest : List Byte), i.wf = true → decode (encodeBytes i ++ rest) = .ok (i, rest)

/-- A word that decodes to an instruction is that instruction's encoding, and the instruction is well-formed: no word has
two readings and no bit is dropped (R45, R48). -/
def Obligations.EncodeOfDecodeIsTheWord : Prop :=
  ∀ (w : Word) (i : Instr), decodeWord w = .ok i → encode i = w ∧ i.wf = true

/-- The opcode map of R48 by the number of the word, and the undefined words of R49: every other word. -/
def Obligations.OpcodeMapByArithmetic : Prop :=
  ∀ w : Word,
    let o := w.toNat
    let t := o / 4096
    let n := o % 16
    let kk := o % 256
    let vx : Nibble := BitVec.ofNat 4 (o / 256)
    let vy : Nibble := BitVec.ofNat 4 (o / 16)
    let imm : Byte := BitVec.ofNat 8 o
    let nnn : Addr12 := BitVec.ofNat 12 o
    decodeWord w =
      if o = 0x00E0 then .ok .cls
      else if o = 0x00EE then .ok .ret
      else if t = 0x0 then .ok (.sys nnn)
      else if t = 0x1 then .ok (.jp nnn)
      else if t = 0x2 then .ok (.call nnn)
      else if t = 0x3 then .ok (.seImm vx imm)
      else if t = 0x4 then .ok (.sneImm vx imm)
      else if t = 0x5 ∧ n = 0 then .ok (.seReg vx vy)
      else if t = 0x6 then .ok (.ldImm vx imm)
      else if t = 0x7 then .ok (.addImm vx imm)
      else if t = 0x8 ∧ n = 0x0 then .ok (.ldReg vx vy)
      else if t = 0x8 ∧ n = 0x1 then .ok (.or vx vy)
      else if t = 0x8 ∧ n = 0x2 then .ok (.and vx vy)
      else if t = 0x8 ∧ n = 0x3 then .ok (.xor vx vy)
      else if t = 0x8 ∧ n = 0x4 then .ok (.addReg vx vy)
      else if t = 0x8 ∧ n = 0x5 then .ok (.sub vx vy)
      else if t = 0x8 ∧ n = 0x6 then .ok (.shr vx vy)
      else if t = 0x8 ∧ n = 0x7 then .ok (.subn vx vy)
      else if t = 0x8 ∧ n = 0xE then .ok (.shl vx vy)
      else if t = 0x9 ∧ n = 0 then .ok (.sneReg vx vy)
      else if t = 0xA then .ok (.ldI nnn)
      else if t = 0xB then .ok (.jpV0 nnn)
      else if t = 0xC then .ok (.rnd vx imm)
      else if t = 0xD then .ok (.drw vx vy (BitVec.ofNat 4 o))
      else if t = 0xE ∧ kk = 0x9E then .ok (.skp vx)
      else if t = 0xE ∧ kk = 0xA1 then .ok (.sknp vx)
      else if t = 0xF ∧ kk = 0x07 then .ok (.ldDtRead vx)
      else if t = 0xF ∧ kk = 0x0A then .ok (.ldK vx)
      else if t = 0xF ∧ kk = 0x15 then .ok (.ldDtWrite vx)
      else if t = 0xF ∧ kk = 0x18 then .ok (.ldSt vx)
      else if t = 0xF ∧ kk = 0x1E then .ok (.addI vx)
      else if t = 0xF ∧ kk = 0x29 then .ok (.ldF vx)
      else if t = 0xF ∧ kk = 0x33 then .ok (.ldB vx)
      else if t = 0xF ∧ kk = 0x55 then .ok (.stRegs vx)
      else if t = 0xF ∧ kk = 0x65 then .ok (.ldRegs vx)
      else .error (.undefinedWord w)

/-- One word of each family, 0 to F, written out from R48, as bytes in memory order (R35); of families 5 and 8 an undefined
word too, and a lone byte is no instruction (R44). -/
def Obligations.WordsOfEachFamilyDecode : Prop :=
  decode [0x00, 0xE0] = .ok (.cls, []) ∧ decode [0x00, 0xEE] = .ok (.ret, []) ∧
  decode [0x01, 0x23] = .ok (.sys 0x123, []) ∧ decode [0x13, 0x08] = .ok (.jp 0x308, []) ∧
  decode [0x2A, 0xBC] = .ok (.call 0xABC, []) ∧ decode [0x33, 0x12] = .ok (.seImm 3 0x12, []) ∧
  decode [0x43, 0x12] = .ok (.sneImm 3 0x12, []) ∧ decode [0x53, 0x40] = .ok (.seReg 3 4, []) ∧
  decode [0x53, 0x41] = .error (.undefinedWord 0x5341) ∧ decode [0x61, 0xC3] = .ok (.ldImm 1 0xC3, []) ∧
  decode [0x71, 0x01] = .ok (.addImm 1 0x01, []) ∧ decode [0x81, 0x2E] = .ok (.shl 1 2, []) ∧
  decode [0x80, 0x08] = .error (.undefinedWord 0x8008) ∧ decode [0x93, 0x40] = .ok (.sneReg 3 4, []) ∧
  decode [0xA3, 0x00] = .ok (.ldI 0x300, []) ∧ decode [0xB3, 0x00] = .ok (.jpV0 0x300, []) ∧
  decode [0xC3, 0x0F] = .ok (.rnd 3 0x0F, []) ∧ decode [0xD1, 0x25] = .ok (.drw 1 2 5, []) ∧
  decode [0xE5, 0xA1] = .ok (.sknp 5, []) ∧ decode [0xF1, 0x55] = .ok (.stRegs 1, []) ∧ decode [0xF1] = .error .truncated

/-! ### The step (R51, R36, R49) and memory (20_memory.md) -/

/-- Inside a tick with a turn left, unpaused and not halted, when the bytes at pc and pc + 1 can be addressed and decode to
an instruction, the machine's step is that instruction executed on the state whose pc has advanced by 2 and whose tick has
one turn less (R51, R103). Nothing else happens around it. -/
def Obligations.StepRunsTheDecodedInstruction : Prop :=
  ∀ (s : State) (n : Nat) (i : Instr), s.runs n → AddrsOk s s.pc.toNat 2 →
    decode [memRead s s.pc.toNat, memRead s (s.pc.toNat + 1)] = .ok (i, []) →
    step s = exec i { s with pc := s.pc + 2, batch := some n }

/-- A fetched undefined word only advances pc under `UNDEFINED_SUBOP = nop`, and raises UnknownOpcode with the opcode and
its address under `fault`, pc at p + 2 (R49, R51). The two settings are the spec's decision D7, the record's
form D15. -/
def Obligations.UndefinedWordStep : Prop :=
  ∀ (s : State) (n : Nat) (w : Word), s.runs n → AddrsOk s s.pc.toNat 2 →
    decode [memRead s s.pc.toNat, memRead s (s.pc.toNat + 1)] = .error (.undefinedWord w) →
    (s.params.undefinedSubop = .nop → step s = .next { s with pc := s.pc + 2, batch := some n }) ∧
    (s.params.undefinedSubop = .fault →
      step s = .next { s with
        pc := s.pc + 2
        batch := some n
        fault := some { code := .unknownOpcode, pc := s.pc, opcode := some w, info := .none } })

/-- A fetch at p raises AddressOutOfRange under `ADDR_POLICY = fault` when p or p + 1 is above 0xFFF: the first of the two
is recorded, the opcode is none, and pc stays at p (R31, R36, R51, R98). The setting is the spec's decision D1, the record's
form D15, the order of the checks D28. -/
def Obligations.FetchFaultLeavesPc : Prop :=
  ∀ (s : State) (n : Nat), s.runs n → s.params.addrPolicy = .fault → 0xFFF < s.pc.toNat + 1 →
    step s = .next { s with
      batch := some n
      fault := some { code := .addressOutOfRange, pc := s.pc, opcode := none, info := .address (max s.pc.toNat 0x1000) } }

/-- The opcode of a step: big-endian, from the cells of p and p + 1, each reduced modulo 4096 on its own (R35, R36). -/
def Obligations.FetchIsBigEndian : Prop :=
  ∀ s : State, (fetchWord s).toNat =
    (cellRead s.mem (s.pc.toNat % 4096)).toNat * 256 + (cellRead s.mem ((s.pc.toNat + 1) % 4096)).toNat

/-- MemWrite(a, 1, v) sets the cell that a reaches and changes no other cell and no other state (R33); MemRead reads it
back (R32); an address up to 0xFFF reaches itself and a higher one its remainder (R31). -/
def Obligations.MemWriteChangesOneCell : Prop :=
  ∀ (s : State) (a : Nat) (b : Byte),
    memWrite s a b = { s with mem := (memWrite s a b).mem } ∧
    (∀ c, cellRead (memWrite s a b).mem c = if c = a % 4096 then b else cellRead s.mem c) ∧
    memRead (memWrite s a b) a = b

/-- Which addresses raise: none under `wrap`; under `fault`, the first one above 0xFFF of the run an instruction uses (R31,
R39). The setting is the spec's decision D1, the order D28. -/
def Obligations.AddressCheckFindsTheFirstBadOne : Prop :=
  ∀ (s : State) (base n : Nat),
    (AddrsOk s base n → firstBadAddr s.params.addrPolicy base n = none) ∧
    (¬ AddrsOk s base n → firstBadAddr s.params.addrPolicy base n = some (max base 0x1000) ∧
      base ≤ max base 0x1000 ∧ max base 0x1000 < base + n)

/-- A stored pair of bytes is the opcode fetched there, at once (R43, R35): whatever the state, after writing hi at pc and
lo at pc + 1 the step's opcode is hi then lo. -/
def Obligations.StoredBytesAreFetched : Prop :=
  ∀ (s : State) (hi lo : Byte),
    fetchWord (memWrite (memWrite s s.pc.toNat hi) (s.pc.toNat + 1) lo) = wordOfBytes hi lo

/-! ### Control flow (41_control_flow.md) -/

/-- 0nnn is a no-op (R57), 1nnn sets pc to nnn (R58), Bnnn sets pc to nnn + V0 without reducing it (R60); no flag and no
other state changes, and none faults. -/
def Obligations.JumpsAndNoOp : Prop :=
  ∀ (nnn : Addr12) (s : State),
    (nnn ≠ 0x0E0 → nnn ≠ 0x0EE → Encodes (wordNNN 0x0 nnn) (.sys nnn)) ∧ exec (.sys nnn) s = .next s ∧
    Encodes (wordNNN 0x1 nnn) (.jp nnn) ∧ exec (.jp nnn) s = .next { s with pc := nnn.setWidth 16 } ∧
    Encodes (wordNNN 0xB nnn) (.jpV0 nnn) ∧
    ∃ target : Word, target.toNat = nnn.toNat + (readV s 0).toNat ∧ target.toNat ≤ 0x10FE ∧
      exec (.jpV0 nnn) s = .next { s with pc := target }

/-- 2nnn pushes the advanced pc and jumps; with the stack at capacity it raises StackOverflow, and pc and the stack stay
(R54, R59). The capacity is the spec's decision D8, the record's form its decision D15; that the record's pc is pc - 2 and its
opcode the encoding is assumption 12. -/
def Obligations.CallPushesTheReturnAddress : Prop :=
  ∀ (nnn : Addr12) (s : State),
    Encodes (wordNNN 0x2 nnn) (.call nnn) ∧
    (s.stack.length ≠ s.params.stackCapacity →
      exec (.call nnn) s = .next { s with stack := s.stack ++ [s.pc], pc := nnn.setWidth 16 }) ∧
    (s.stack.length = s.params.stackCapacity →
      exec (.call nnn) s = .next (raised s .stackOverflow (wordNNN 0x2 nnn) .none))

/-- 00EE sets pc to the most recently pushed value, which leaves the stack; with an empty stack it raises StackUnderflow,
and pc and the stack stay (R55, R56). The record's form is the spec's decision D15; that its pc is pc - 2 and its opcode the
encoding is assumption 12. -/
def Obligations.ReturnPopsTheStack : Prop :=
  Encodes 0x00EE .ret ∧ ∀ s : State,
    (∀ (l : List Word) (w : Word), s.stack = l ++ [w] → exec .ret s = .next { s with stack := l, pc := w }) ∧
    (s.stack = [] → exec .ret s = .next (raised s .stackUnderflow 0x00EE .none))

/-- A call that completes, then a return from wherever the callee has come to: the machine is back in the state after the
call's own advance, pc at the instruction following it and the stack as it was (R56, R59, R61). -/
def Obligations.ReturnUndoesCall : Prop :=
  ∀ (nnn : Addr12) (s : State), s.stack.length ≠ s.params.stackCapacity →
    ∃ t, exec (.call nnn) s = .next t ∧ t.pc.toNat = nnn.toNat ∧ ∀ p : Word, exec .ret { t with pc := p } = .next s

/-! ### Skips (42_skips.md, 47_keyboard.md) -/

/-- The four register skips: pc moves 2 further exactly when the comparison holds; nothing else changes and none faults
(R52, R62 to R65). -/
def Obligations.SkipsCompareRegisters : Prop :=
  ∀ (x y : Nibble) (kk : Byte) (s : State),
    Encodes (wordXKK 0x3 x kk) (.seImm x kk) ∧
    exec (.seImm x kk) s = .next { s with pc := if readV s x = kk then s.pc + 2 else s.pc } ∧
    Encodes (wordXKK 0x4 x kk) (.sneImm x kk) ∧
    exec (.sneImm x kk) s = .next { s with pc := if readV s x = kk then s.pc else s.pc + 2 } ∧
    Encodes (wordXYN 0x5 x y 0) (.seReg x y) ∧
    exec (.seReg x y) s = .next { s with pc := if readV s x = readV s y then s.pc + 2 else s.pc } ∧
    Encodes (wordXYN 0x9 x y 0) (.sneReg x y) ∧
    exec (.sneReg x y) s = .next { s with pc := if readV s x = readV s y then s.pc else s.pc + 2 }

/-- Ex9E and ExA1 read one and the same key bit and skip on opposite values of it. For Vx up to 15 it is key[Vx]; above 15
it is, by `KEY_RANGE_POLICY`, a free draw, 0, or the key of the low nibble. Neither ever faults, and at most the draw is
taken besides (R91 to R93). What Vx above 15 reads is the spec's decision D11; the draw is a free value (assumption 6), and
the statement holds whatever it is. -/
def Obligations.KeySkipsReadTheKey : Prop :=
  ∀ (x : Nibble) (s : State),
    Encodes (wordXKK 0xE x 0x9E) (.skp x) ∧ Encodes (wordXKK 0xE x 0xA1) (.sknp x) ∧
    ∃ (pressed : Bool) (draws : Nat),
      exec (.skp x) s = .next { s with pc := if pressed = true then s.pc + 2 else s.pc, keyDraws := draws } ∧
      exec (.sknp x) s = .next { s with pc := if pressed = true then s.pc else s.pc + 2, keyDraws := draws } ∧
      (∀ h : (readV s x).toNat < 16, pressed = s.keys[(readV s x).toNat] ∧ draws = s.keyDraws) ∧
      (15 < (readV s x).toNat →
        (s.params.keyRangePolicy = .draw → pressed = Config.keydraw s.keyDraws ∧ draws = s.keyDraws + 1) ∧
        (s.params.keyRangePolicy = .notPressed → pressed = false ∧ draws = s.keyDraws) ∧
        (s.params.keyRangePolicy = .lowNibble →
          pressed = s.keys[(readV s x).toNat % 16]'(Nat.mod_lt _ (by decide)) ∧ draws = s.keyDraws))

/-! ### Register loads and ALU (43_alu.md, 45_timers.md) -/

/-- 6xkk, 7xkk, 8xy0 to 8xy3 and Fx07 write their value into Vx and nothing else: VF only when x is 15, as a plain write
(R68 to R73, R86). -/
def Obligations.LoadsAndLogicWriteOnlyVx : Prop :=
  ∀ (x y : Nibble) (kk : Byte) (s : State),
    Encodes (wordXKK 0x6 x kk) (.ldImm x kk) ∧ WritesV (.ldImm x kk) s x kk ∧
    Encodes (wordXKK 0x7 x kk) (.addImm x kk) ∧
    WritesV (.addImm x kk) s x (BitVec.ofNat 8 (((readV s x).toNat + kk.toNat) % 256)) ∧
    Encodes (wordXYN 0x8 x y 0) (.ldReg x y) ∧ WritesV (.ldReg x y) s x (readV s y) ∧
    Encodes (wordXYN 0x8 x y 1) (.or x y) ∧ WritesV (.or x y) s x (readV s x ||| readV s y) ∧
    Encodes (wordXYN 0x8 x y 2) (.and x y) ∧ WritesV (.and x y) s x (readV s x &&& readV s y) ∧
    Encodes (wordXYN 0x8 x y 3) (.xor x y) ∧ WritesV (.xor x y) s x (readV s x ^^^ readV s y) ∧
    Encodes (wordXKK 0xF x 0x07) (.ldDtRead x) ∧ WritesV (.ldDtRead x) s x s.dt

/-- 8xy4: Vx gets the sum modulo 256 and VF the carry; when x is 15, the one cell holds the sum under `as_written` and the
carry under `flag_last`. Nothing else changes (R74). -/
def Obligations.AddSetsCarry : Prop :=
  ∀ (x y : Nibble) (s : State),
    let sum := (readV s x).toNat + (readV s y).toNat
    let carry : Byte := if 255 < sum then 1 else 0
    Encodes (wordXYN 0x8 x y 4) (.addReg x y) ∧
    ∃ t, exec (.addReg x y) s = .next t ∧ OnlyV s t ∧ SameVExcept s t [x, 15] ∧
      (x ≠ 15 → (readV t x).toNat = sum % 256 ∧ readV t 15 = carry) ∧
      (x = 15 → s.params.vfAliasOrder = .asWritten → (readV t 15).toNat = sum % 256) ∧
      (x = 15 → s.params.vfAliasOrder = .flagLast → readV t 15 = carry)

/-- 8xy5: VF is 1 iff Vx > Vy strictly, and Vx gets the difference modulo 256. Under `as_written` the difference reads the
registers after the VF write, so an operand that is VF reads the flag; under `flag_last` it reads the old values and the
flag is what VF ends with (R67, R75). -/
def Obligations.SubtractSetsNoBorrow : Prop :=
  ∀ (x y : Nibble) (s : State),
    let a := (readV s x).toNat
    let b := (readV s y).toNat
    let flag := if b < a then 1 else 0
    Encodes (wordXYN 0x8 x y 5) (.sub x y) ∧
    ∃ t, exec (.sub x y) s = .next t ∧ OnlyV s t ∧ SameVExcept s t [x, 15] ∧
      (x ≠ 15 → (readV t 15).toNat = flag) ∧
      (s.params.vfAliasOrder = .asWritten →
        (readV t x).toNat = ((if x = 15 then flag else a) + 256 - (if y = 15 then flag else b)) % 256) ∧
      (s.params.vfAliasOrder = .flagLast →
        (x ≠ 15 → (readV t x).toNat = (a + 256 - b) % 256) ∧ (readV t 15).toNat = flag)

/-- 8xy7: as 8xy5 with the operands' parts exchanged: VF is 1 iff Vy > Vx strictly, and Vx gets Vy - Vx (R67, R77). -/
def Obligations.ReverseSubtractSetsNoBorrow : Prop :=
  ∀ (x y : Nibble) (s : State),
    let a := (readV s x).toNat
    let b := (readV s y).toNat
    let flag := if a < b then 1 else 0
    Encodes (wordXYN 0x8 x y 7) (.subn x y) ∧
    ∃ t, exec (.subn x y) s = .next t ∧ OnlyV s t ∧ SameVExcept s t [x, 15] ∧
      (x ≠ 15 → (readV t 15).toNat = flag) ∧
      (s.params.vfAliasOrder = .asWritten →
        (readV t x).toNat = ((if y = 15 then flag else b) + 256 - (if x = 15 then flag else a)) % 256) ∧
      (s.params.vfAliasOrder = .flagLast →
        (x ≠ 15 → (readV t x).toNat = (b + 256 - a) % 256) ∧ (readV t 15).toNat = flag)

/-- 8xy6 and 8xyE shift Vx, whatever Vy holds; VF gets the bit shifted out. With x = 15, `as_written` shifts the flag and
`flag_last` keeps the flag (R67, R76, R78). -/
def Obligations.ShiftsSetTheBitShiftedOut : Prop :=
  ∀ (x y : Nibble) (s : State),
    let a := (readV s x).toNat
    Encodes (wordXYN 0x8 x y 6) (.shr x y) ∧ Encodes (wordXYN 0x8 x y 0xE) (.shl x y) ∧
    (∃ t, exec (.shr x y) s = .next t ∧ OnlyV s t ∧ SameVExcept s t [x, 15] ∧
      (x ≠ 15 → (readV t x).toNat = a / 2 ∧ (readV t 15).toNat = a % 2) ∧
      (x = 15 → s.params.vfAliasOrder = .asWritten → (readV t 15).toNat = 0) ∧
      (x = 15 → s.params.vfAliasOrder = .flagLast → (readV t 15).toNat = a % 2)) ∧
    (∃ t, exec (.shl x y) s = .next t ∧ OnlyV s t ∧ SameVExcept s t [x, 15] ∧
      (x ≠ 15 → (readV t x).toNat = a * 2 % 256 ∧ (readV t 15).toNat = a / 128) ∧
      (x = 15 → s.params.vfAliasOrder = .asWritten → (readV t 15).toNat = a / 128 * 2) ∧
      (x = 15 → s.params.vfAliasOrder = .flagLast → (readV t 15).toNat = a / 128))

/-- When neither x nor y is 15, the five flag-writing rows give the same next state under both settings of
`VF_ALIAS_ORDER` (R67). -/
def Obligations.AliasOrderNotObservable : Prop :=
  ∀ (x y : Nibble) (s : State) (o : VfAliasOrder) (i : Instr), x ≠ 15 → y ≠ 15 →
    i ∈ [Instr.addReg x y, Instr.sub x y, Instr.shr x y, Instr.subn x y, Instr.shl x y] →
    ∃ t, exec i s = .next t ∧
      exec i { s with params := { s.params with vfAliasOrder := o } } =
        .next { t with params := { s.params with vfAliasOrder := o } }

/-- Cxkk takes one fresh draw and writes it, masked by kk, into Vx and nothing else; with kk = 0 it writes 0 (R79). The
draw is a free value (assumption 5), and the statement holds whatever it is. -/
def Obligations.RandomIsMaskedDraw : Prop :=
  ∀ (x : Nibble) (kk : Byte) (s : State),
    Encodes (wordXKK 0xC x kk) (.rnd x kk) ∧
    ∃ t, exec (.rnd x kk) s = .next t ∧ OnlyV { s with randDraws := s.randDraws + 1 } t ∧ SameVExcept s t [x] ∧
      readV t x = Config.rand8 s.randDraws &&& kk ∧ (kk = 0 → readV t x = 0)

/-! ### Index register, memory and timers (44_index_memory.md, 45_timers.md) -/

/-- Annn sets I to nnn, and Fx29 to 5 times Vx, which is not masked; neither changes anything else (R80, R82). -/
def Obligations.IndexLoads : Prop :=
  ∀ (x : Nibble) (nnn : Addr12) (s : State),
    Encodes (wordNNN 0xA nnn) (.ldI nnn) ∧ exec (.ldI nnn) s = .next { s with i := nnn.setWidth 16 } ∧
    Encodes (wordXKK 0xF x 0x29) (.ldF x) ∧
    (∃ j : Word, j.toNat = (readV s x).toNat * 5 ∧ exec (.ldF x) s = .next { s with i := j })

/-- Fx1E adds Vx to I modulo 2^16 and changes nothing else, VF included (R81). The wrap at 2^16 is the spec's decision
D5. -/
def Obligations.AddToIndexWraps : Prop :=
  ∀ (x : Nibble) (s : State),
    Encodes (wordXKK 0xF x 0x1E) (.addI x) ∧
    (∃ j : Word, j.toNat = (s.i.toNat + (readV s x).toNat) % 65536 ∧ exec (.addI x) s = .next { s with i := j })

/-- Fx15 and Fx18 write DT and ST, and neither changes anything else, the tone bit included (R87, R88). -/
def Obligations.TimerWrites : Prop :=
  ∀ (x : Nibble) (s : State),
    Encodes (wordXKK 0xF x 0x15) (.ldDtWrite x) ∧ exec (.ldDtWrite x) s = .next { s with dt := readV s x } ∧
    Encodes (wordXKK 0xF x 0x18) (.ldSt x) ∧ exec (.ldSt x) s = .next { s with st := readV s x }

/-- Fx33 writes the hundreds, tens and ones of Vx at I, I + 1 and I + 2, and nothing else; when an address raises, no byte
is written (R39, R83). The fault clause rests on the spec's decisions D1 (`ADDR_POLICY`), D15 (the record)
and D28 (every address is checked first) and on assumption 12 (the record's pc and opcode). -/
def Obligations.BcdStoresThreeDigits : Prop :=
  ∀ (x : Nibble) (s : State),
    Encodes (wordXKK 0xF x 0x33) (.ldB x) ∧
    (AddrsOk s (baseI s) 3 → ∃ t, exec (.ldB x) s = .next t ∧ t = { s with mem := t.mem } ∧
      (cellRead t.mem (cellOf (baseI s))).toNat = (readV s x).toNat / 100 ∧
      (cellRead t.mem (cellOf (baseI s + 1))).toNat = (readV s x).toNat / 10 % 10 ∧
      (cellRead t.mem (cellOf (baseI s + 2))).toNat = (readV s x).toNat % 10 ∧
      ∀ a, a ≠ cellOf (baseI s) → a ≠ cellOf (baseI s + 1) → a ≠ cellOf (baseI s + 2) →
        cellRead t.mem a = cellRead s.mem a) ∧
    (¬ AddrsOk s (baseI s) 3 →
      exec (.ldB x) s =
        .next (raised s .addressOutOfRange (wordXKK 0xF x 0x33) (.address (max (baseI s) 0x1000))))

/-- Fx55 writes V0 to Vx at I to I + x, and nothing else, I included; when an address raises, no byte is written (R39,
R84). The fault clause rests on the spec's decisions D1 (`ADDR_POLICY`), D15 (the record)
and D28 (every address is checked first) and on assumption 12 (the record's pc and opcode). -/
def Obligations.StoreRegistersWritesTheRun : Prop :=
  ∀ (x : Nibble) (s : State),
    Encodes (wordXKK 0xF x 0x55) (.stRegs x) ∧
    (AddrsOk s (baseI s) (x.toNat + 1) → ∃ t, exec (.stRegs x) s = .next t ∧ t = { s with mem := t.mem } ∧
      (∀ k : Nibble, k ≤ x → cellRead t.mem (cellOf (baseI s + k.toNat)) = readV s k) ∧
      ∀ a, (∀ k : Nibble, k ≤ x → a ≠ cellOf (baseI s + k.toNat)) → cellRead t.mem a = cellRead s.mem a) ∧
    (¬ AddrsOk s (baseI s) (x.toNat + 1) →
      exec (.stRegs x) s =
        .next (raised s .addressOutOfRange (wordXKK 0xF x 0x55) (.address (max (baseI s) 0x1000))))

/-- Fx65 loads V0 to Vx from I to I + x, and changes no other register and nothing else; when an address raises, no register
is written (R39, R85). The fault clause rests on the spec's decisions D1 (`ADDR_POLICY`), D15 (the record)
and D28 (every address is checked first) and on assumption 12 (the record's pc and opcode). -/
def Obligations.LoadRegistersReadsTheRun : Prop :=
  ∀ (x : Nibble) (s : State),
    Encodes (wordXKK 0xF x 0x65) (.ldRegs x) ∧
    (AddrsOk s (baseI s) (x.toNat + 1) → ∃ t, exec (.ldRegs x) s = .next t ∧ OnlyV s t ∧
      ∀ k : Nibble, readV t k = if k ≤ x then cellRead s.mem (cellOf (baseI s + k.toNat)) else readV s k) ∧
    (¬ AddrsOk s (baseI s) (x.toNat + 1) →
      exec (.ldRegs x) s =
        .next (raised s .addressOutOfRange (wordXKK 0xF x 0x65) (.address (max (baseI s) 0x1000))))

/-- Fx55 then Fx65 from any state that agrees with the stored one in memory, I and the address policy: the registers V0 to Vx
come back (R84, R85). -/
def Obligations.LoadAfterStoreRestoresRegisters : Prop :=
  ∀ (x : Nibble) (s t u : State), AddrsOk s (baseI s) (x.toNat + 1) → exec (.stRegs x) s = .next t →
    u.mem = t.mem → u.i = t.i → u.params = t.params →
    ∃ w, exec (.ldRegs x) u = .next w ∧ ∀ k : Nibble, k ≤ x → readV w k = readV s k

/-! ### Display (46_display.md, 60_exceptions.md section 4) -/

/-- 00E0 clears every display cell and changes nothing else, VF included (R89, R109). -/
def Obligations.ClearDisplayClearsEveryCell : Prop :=
  Encodes 0x00E0 .cls ∧ ∀ s : State, ∃ t, exec .cls s = .next t ∧ t = { s with disp := t.disp } ∧
    ∀ (c : Nat) (h : c < 2048), t.disp[c] = false

/-- setPixel inverts the one cell its coordinates reach and answers whether it was on (R107). On every coordinate in contract
the cell is that of the single correction of the source's wrap. The clauses with the remainder hold out of contract too, under
either `COORD_POLICY`: under `modulo` that is the spec's decision D9, under `fault`, where Dxyn never asks it, it is the model's
(assumption 10). -/
def Obligations.SetPixelTogglesOneCell : Prop :=
  ∀ (d : Vector Bool 2048) (x y : Int), ∃ (cx cy : Nat) (h : cy * 64 + cx < 2048),
    (cx : Int) = x % 64 ∧ (cy : Int) = y % 32 ∧
    (-64 ≤ x → x < 128 → (cx : Int) = if 64 ≤ x then x - 64 else if x < 0 then x + 64 else x) ∧
    (-32 ≤ y → y < 64 → (cy : Int) = if 32 ≤ y then y - 32 else if y < 0 then y + 32 else y) ∧
    (setPixel d x y).2 = d[cy * 64 + cx] ∧
    ∀ (c : Nat) (hc : c < 2048), (setPixel d x y).1[c] = if c = cy * 64 + cx then !d[c] else d[c]

/-- Dxyn, when its addresses and coordinates raise nothing: exactly the display cells its set bits reach are inverted, VF is
1 iff one of them was on and 0 otherwise, and nothing else changes, memory and I included (R90, R107, R108). It holds for
every x, y and n, with n = 0 and with x or y equal to 15. That bit 7 is the leftmost column is the spec's decision D10. -/
def Obligations.DrawInvertsTheSpriteCells : Prop :=
  ∀ (x y n : Nibble) (s : State), Encodes (wordXYN 0xD x y n) (.drw x y n) ∧
    (AddrsOk s (baseI s) n.toNat → CoordsOk s x y n →
      ∃ t, exec (.drw x y n) s = .next t ∧ t = { s with disp := t.disp, v := t.v } ∧ SameVExcept s t [15] ∧
        (∀ (c : Nat) (h : c < 2048), (SpriteHits s x y n c → t.disp[c] = !s.disp[c]) ∧
          (¬ SpriteHits s x y n c → t.disp[c] = s.disp[c])) ∧
        ((∃ (c : Nat) (h : c < 2048), SpriteHits s x y n c ∧ s.disp[c] = true) → readV t 15 = 1) ∧
        ((¬ ∃ (c : Nat) (h : c < 2048), SpriteHits s x y n c ∧ s.disp[c] = true) → readV t 15 = 0))

/-- Where Dxyn faults instead: an address above 0xFFF under `ADDR_POLICY = fault`, checked first; else, under
`COORD_POLICY = fault`, the first set bit in row and column order that is out of contract, with its coordinates before
wrapping. Either leaves everything but the latch as it was (R39, R90, R98). The settings are the spec's decisions D1 and D9,
the record's form D15, the order of the checks D28; that the record's pc is pc - 2 and its opcode the encoding is
assumption 12. -/
def Obligations.DrawFaultsLeaveTheDisplay : Prop :=
  ∀ (x y n : Nibble) (s : State),
    (¬ AddrsOk s (baseI s) n.toNat →
      exec (.drw x y n) s =
        .next (raised s .addressOutOfRange (wordXYN 0xD x y n) (.address (max (baseI s) 0x1000)))) ∧
    (AddrsOk s (baseI s) n.toNat → ∀ r c, s.params.coordPolicy = .fault → r < n.toNat → c < 8 →
      spriteBit s r c = true → ¬ BitInContract s x y r c →
      (∀ r' c', c' < 8 → (r' < r ∨ r' = r ∧ c' < c) → spriteBit s r' c' = true → BitInContract s x y r' c') →
      exec (.drw x y n) s =
        .next (raised s .coordinateOutOfContract (wordXYN 0xD x y n)
          (.coords ((readV s x).toNat + c : Nat) ((readV s y).toNat + r : Nat))))

/-- Drawing the same sprite at the same place twice restores the display, and the second draw collides if the first turned
a pixel on (R90). -/
def Obligations.DrawTwiceRestoresTheDisplay : Prop :=
  ∀ (x y n : Nibble) (s : State), x ≠ 15 → y ≠ 15 → AddrsOk s (baseI s) n.toNat → CoordsOk s x y n →
    ∃ t u, exec (.drw x y n) s = .next t ∧ exec (.drw x y n) t = .next u ∧ u.disp = s.disp ∧
      ((∃ (c : Nat) (h : c < 2048), SpriteHits s x y n c ∧ s.disp[c] = false) → readV u 15 = 1)

/-! ### Keys and the key wait (47_keyboard.md, R111, R113) -/

/-- Fx0A sets paused and the target register and changes nothing else, Vx included; the next onKeyPress(k) between ticks
writes k into that register, ends the wait and changes nothing else (R94, R113). -/
def Obligations.KeyWaitEndsAtTheKeyPress : Prop :=
  ∀ (x : Nibble) (s : State), Encodes (wordXKK 0xF x 0x0A) (.ldK x) ∧
    ∃ t, exec (.ldK x) s = .next t ∧ t = { s with paused := true, waitReg := some x } ∧
      ∀ (k : Nat) (u : State) (rest : List HostEvent), k < 16 → u.waitReg = t.waitReg → u.batch = none →
        u.inputs = .onKeyPress k :: rest →
        ∃ w, step u = .next w ∧ w = { u with v := w.v, paused := false, waitReg := none, inputs := rest } ∧
          (readV w x).toNat = k ∧ SameVExcept u w [x]

/-- keyDown(k) and keyUp(k) set and clear flag k and change nothing else, a key wait included; onKeyPress(k) with no wait
pending changes nothing (R111, R113). -/
def Obligations.KeyEventsBetweenTicks : Prop :=
  ∀ (s : State) (k : Nat) (hk : k < 16) (rest : List HostEvent), s.batch = none →
    (s.inputs = .keyDown k :: rest → step s = .next { s with inputs := rest, keys := s.keys.set k true }) ∧
    (s.inputs = .keyUp k :: rest → step s = .next { s with inputs := rest, keys := s.keys.set k false }) ∧
    (s.inputs = .onKeyPress k :: rest → s.waitReg = none → step s = .next { s with inputs := rest })

/-- The model gives a host event no step exactly where R115 says: a key index outside 0..15, or any event during a tick. That
these have no step is the spec's decision D12. -/
def Obligations.RefusalsAreOnlyOutOfContractEvents : Prop :=
  ∀ (e : HostEvent) (s : State),
    (s.batch ≠ none → hostEvent e s = .refused .hostEventDuringTick) ∧
    (s.batch = none → ∀ k, e = .keyDown k ∨ e = .keyUp k ∨ e = .onKeyPress k → 15 < k →
      hostEvent e s = .refused (.keyIndexOutOfRange k)) ∧
    (s.batch = none → (∀ k, e = .keyDown k ∨ e = .keyUp k ∨ e = .onKeyPress k → k ≤ 15) →
      ∃ t, hostEvent e s = .next t)

/-! ### The tick (60_exceptions.md section 3) -/

/-- The timer decrement: each timer down by 1, never below 0, and nothing else (R104). -/
def Obligations.TimersCountDownToZero : Prop :=
  ∀ s : State, (timerDecrement s).dt.toNat = s.dt.toNat - 1 ∧ (timerDecrement s).st.toNat = s.st.toNat - 1 ∧
    timerDecrement s = { s with dt := (timerDecrement s).dt, st := (timerDecrement s).st }

/-- A turn of a running tick that executes nothing: a latched fault ends the tick with nothing else changed; a paused core,
or a loop with no turn left, ends it with the decrement when unpaused, the tone following the decremented ST, and one
frame_ready (R97, R103 to R106). That a faulting tick signals nothing is the spec's decision D14; that a tick runs turn by
turn is the model's (assumption 2). -/
def Obligations.TickEndUpdatesTimersToneAndFrame : Prop :=
  ∀ (s : State) (n : Nat), s.batch = some n →
    (s.fault ≠ none → step s = .next { s with batch := none }) ∧
    (s.fault = none → (s.paused = true ∨ n = 0) →
      ∃ t, step s = .next t ∧
        t = { s with batch := none, dt := t.dt, st := t.st, tone := t.tone, outputs := s.outputs ++ [.frameReady] } ∧
        t.dt.toNat = (if s.paused = true then s.dt.toNat else s.dt.toNat - 1) ∧
        t.st.toNat = (if s.paused = true then s.st.toNat else s.st.toNat - 1) ∧
        (t.tone = true ↔ 0 < t.st.toNat))

/-- The machine's single steps run the host's tick(cpt) exactly as R103 writes it: after at most cpt + 2 steps (the start, up
to cpt steps of the core, the end) the state is the whole tick's. That a tick is several steps is the model's choice
(assumption 2), which this statement justifies. -/
def Obligations.StepsRunTheWholeTick : Prop :=
  ∀ (s : State) (cpt : Nat) (rest : List HostEvent), s.batch = none → s.inputs = .tick cpt :: rest →
    ∃ k, k ≤ cpt + 2 ∧ Host.Core.run Sys2Proof.core k s = wholeTick cpt { s with inputs := rest } ∧
      ∃ t, wholeTick cpt { s with inputs := rest } = .next t ∧ t.batch = none

/-- A tick of a paused core, in its two steps: no instruction executes, the timers stay, the tone is set from ST, and the
frame is signalled (R22, R103, R118). -/
def Obligations.PausedTickOnlySignals : Prop :=
  ∀ (s : State) (cpt : Nat) (rest : List HostEvent), s.batch = none → s.fault = none → s.paused = true →
    s.inputs = .tick cpt :: rest →
    Host.Core.run Sys2Proof.core 2 s =
      .next { s with inputs := rest, tone := decide (0 < s.st.toNat), outputs := s.outputs ++ [.frameReady] }

/-- A halted core changes under no tick: the step that takes the host's tick changes nothing but the host's list, and with
nothing more from the host it stays as it is for ever (R24, R103, R125). The halt is the spec's decision D14; that the host's
idle turn is a tick is the model's choice (assumption 3). -/
def Obligations.HaltedCoreIgnoresTicks : Prop :=
  ∀ (s : State), s.fault ≠ none → s.batch = none →
    (∀ (cpt : Nat) (rest : List HostEvent), s.inputs = .tick cpt :: rest → step s = .next { s with inputs := rest }) ∧
    (s.inputs = [] → ∀ k, Host.Core.run Sys2Proof.core k s = .next s)

/-- Inside a tick the host's list, the key map and the tone stay as they are until the tick's end, and DT changes only by
Fx15 or at the tick's end (R25, R41, R127): every step of a running tick keeps the host's list and the keys, and one that
does not end the tick keeps the tone, the replies, and DT unless it executes Fx15. -/
def Obligations.BatchSeesConstantKeysAndTimers : Prop :=
  ∀ (s t : State) (n : Nat), s.batch = some n → step s = .next t →
    t.inputs = s.inputs ∧ t.keys = s.keys ∧
    (t.batch ≠ none → t.tone = s.tone ∧ t.outputs = s.outputs ∧
      (t.dt = s.dt ∨ ∃ x, decodeWord (fetchWord s) = .ok (.ldDtWrite x)) ∧
      (t.st = s.st ∨ ∃ x, decodeWord (fetchWord s) = .ok (.ldSt x)))

/-! ### Construction and the loads (70_reset_and_hazards.md) -/

/-- The state right after construction: every element of the core at its value in R29. The display, the keys, the latch and the
tone are the spec's decision D18; paused and wait_reg it derives. -/
def Obligations.ResetValues : Prop :=
  (∀ a, cellRead State.reset.mem a = 0x00) ∧ (∀ x, readV State.reset x = 0x00) ∧ State.reset.i = 0x0000 ∧
  State.reset.pc = 0x0200 ∧ State.reset.stack = [] ∧ State.reset.dt = 0x00 ∧ State.reset.st = 0x00 ∧
  (∀ (c : Nat) (h : c < 2048), State.reset.disp[c] = false) ∧ (∀ (k : Nat) (h : k < 16), State.reset.keys[k] = false) ∧
  State.reset.paused = false ∧ State.reset.waitReg = none ∧ State.reset.fault = none ∧ State.reset.tone = false

/-- The host's construct event, from every state and for every value of the parameters, gives every element of the core its
value in R29 and so clears the fault latch (R24, R119). The display, the keys, the latch and the tone are the spec's decision
D18; paused and wait_reg it derives. That the parameters, the host's list, its replies and the draw counters go on is the
model's choice (assumption 11), and that no tick is running after it is too (assumption 2). -/
def Obligations.ConstructionResetsTheCore : Prop :=
  ∀ (s : State) (rest : List HostEvent), s.batch = none → s.inputs = .construct :: rest →
    ∃ t, step s = .next t ∧
      (∀ a, cellRead t.mem a = 0x00) ∧ (∀ x, readV t x = 0x00) ∧ t.i = 0x0000 ∧ t.pc = 0x0200 ∧ t.stack = [] ∧
      t.dt = 0x00 ∧ t.st = 0x00 ∧ (∀ (c : Nat) (h : c < 2048), t.disp[c] = false) ∧
      (∀ (k : Nat) (h : k < 16), t.keys[k] = false) ∧ t.paused = false ∧ t.waitReg = none ∧ t.fault = none ∧
      t.tone = false ∧
      t.params = s.params ∧ t.batch = none ∧ t.inputs = rest ∧ t.outputs = s.outputs ++ [.constructed] ∧
      t.randDraws = s.randDraws ∧ t.keyDraws = s.keyDraws

/-- loadFont writes the 80 bytes of `FONT_TABLE` at 0x000 to 0x04F and nothing else; a second loadFont changes nothing
(R121). -/
def Obligations.LoadFontWritesTheTable : Prop :=
  ∀ (s : State), loadFont s = { s with mem := (loadFont s).mem } ∧
    (∀ a, cellRead (loadFont s).mem a = if h : a < 80 then s.params.fontTable[a] else cellRead s.mem a) ∧
    (∀ rest, s.batch = none → s.inputs = .loadFont :: rest → step s = .next { loadFont s with inputs := rest }) ∧
    SameBytes (loadFont s) (loadFont (loadFont s))

/-- loadProgram copies up to 3584 bytes to 0x200 and changes nothing else, registers and pc included; a longer list is
rejected with its length and changes no state of the core, the fault latch included (R122, R124, R96). -/
def Obligations.LoadProgramCopiesOrRejects : Prop :=
  ∀ (s : State) (bytes : List Byte) (rest : List HostEvent), s.batch = none → s.inputs = .loadProgram bytes :: rest →
    (bytes.length ≤ 3584 → ∃ t, step s = .next t ∧
      t = { s with mem := t.mem, inputs := rest, outputs := s.outputs ++ [.loadOk] } ∧
      (∀ (k : Nat) (hk : k < bytes.length), cellRead t.mem (0x200 + k) = bytes[k]) ∧
      ∀ a, a < 0x200 ∨ 0x200 + bytes.length ≤ a → cellRead t.mem a = cellRead s.mem a) ∧
    (3584 < bytes.length →
      step s = .next { s with inputs := rest, outputs := s.outputs ++ [.programTooLarge bytes.length] })

/-- The host's reads change no state of the core and answer the 2048 pixels, the tone bit, or the latch (R97, R105, R110).
That pixel (x, y) stands at place y*64+x of the answer is the model's choice (assumption 18). -/
def Obligations.HostReadsAreReadOnly : Prop :=
  ∀ (s : State) (rest : List HostEvent), s.batch = none →
    (s.inputs = .readDisplay :: rest → ∃ cells, step s = .next { s with inputs := rest, outputs := s.outputs ++ [.display cells] } ∧
      cells.length = 2048 ∧
      ∀ x y : Nat, x < 64 → y < 32 →
        ∃ isOn, s.disp[y * 64 + x]? = some isOn ∧ cells[y * 64 + x]? = some (x, y, isOn)) ∧
    (s.inputs = .readTone :: rest → step s = .next { s with inputs := rest, outputs := s.outputs ++ [.tone s.tone] }) ∧
    (s.inputs = .readFault :: rest → step s = .next { s with inputs := rest, outputs := s.outputs ++ [.fault s.fault] })

/-! ### Whole-machine rules -/

/-- Every instruction answers a next state from every state: there is one mode, no privilege, and a fatal error is a next
state with the latch set (R11, R97, R102): the spec's decisions D14 and D20, in the model's form (assumption 7). -/
def Obligations.EveryInstructionAnswersNext : Prop :=
  ∀ (i : Instr) (s : State), ∃ t, exec i s = .next t

/-- Which instructions write which state (R14, R16 to R23, R25, R28, R38, R51, R96): for every element of the core, memory, pc
and the fault latch included, an element that an instruction changed names the instructions that write it. Which of them can
raise is in part the spec's decisions D1 and D9. The last clauses are about the model's own fields (assumptions 1 to 6): the
draw counters move only with a draw, the others never. -/
def Obligations.OnlyTheListedInstructionsWrite : Prop :=
  ∀ (i : Instr) (s t : State), exec i s = .next t →
    (∀ r, readV t r ≠ readV s r →
      (∃ x kk, i = .ldImm x kk ∧ r = x) ∨ (∃ x kk, i = .addImm x kk ∧ r = x) ∨
      (∃ x y, (i = .ldReg x y ∨ i = .or x y ∨ i = .and x y ∨ i = .xor x y) ∧ r = x) ∨
      (∃ x kk, i = .rnd x kk ∧ r = x) ∨ (∃ x, i = .ldDtRead x ∧ r = x) ∨
      (∃ x y, (i = .addReg x y ∨ i = .sub x y ∨ i = .shr x y ∨ i = .subn x y ∨ i = .shl x y) ∧ (r = x ∨ r = 15)) ∨
      (∃ x y n, i = .drw x y n ∧ r = 15) ∨ (∃ x, i = .ldRegs x ∧ r ≤ x)) ∧
    (t.mem ≠ s.mem → ∃ x, i = .ldB x ∨ i = .stRegs x) ∧
    (t.pc ≠ s.pc →
      (∃ nnn, i = .jp nnn ∨ i = .call nnn ∨ i = .jpV0 nnn) ∨ i = .ret ∨
      (∃ x kk, i = .seImm x kk ∨ i = .sneImm x kk) ∨ (∃ x y, i = .seReg x y ∨ i = .sneReg x y) ∨
      ∃ x, i = .skp x ∨ i = .sknp x) ∧
    (t.fault ≠ s.fault →
      i = .ret ∨ (∃ nnn, i = .call nnn) ∨ (∃ x, i = .ldB x ∨ i = .stRegs x ∨ i = .ldRegs x) ∨ ∃ x y n, i = .drw x y n) ∧
    (t.i ≠ s.i → (∃ nnn, i = .ldI nnn) ∨ (∃ x, i = .addI x) ∨ ∃ x, i = .ldF x) ∧
    (t.stack ≠ s.stack → (∃ nnn, i = .call nnn) ∨ i = .ret) ∧
    (t.dt ≠ s.dt → ∃ x, i = .ldDtWrite x) ∧ (t.st ≠ s.st → ∃ x, i = .ldSt x) ∧
    (t.disp ≠ s.disp → i = .cls ∨ ∃ x y n, i = .drw x y n) ∧
    (t.paused ≠ s.paused ∨ t.waitReg ≠ s.waitReg → ∃ x, i = .ldK x) ∧
    t.keys = s.keys ∧ t.tone = s.tone ∧ t.params = s.params ∧ t.batch = s.batch ∧ t.inputs = s.inputs ∧
    t.outputs = s.outputs ∧
    (t.randDraws ≠ s.randDraws → ∃ x kk, i = .rnd x kk) ∧
    (t.keyDraws ≠ s.keyDraws → ∃ x, i = .skp x ∨ i = .sknp x)

/-- Every byte of memory reads as before after every instruction but Fx33 and Fx55 (R38): for every cell. -/
def Obligations.OnlyTwoInstructionsWriteMemory : Prop :=
  ∀ (i : Instr) (s t : State), exec i s = .next t → (∀ x, i ≠ .ldB x) → (∀ x, i ≠ .stRegs x) → SameBytes s t

/-- pc after an instruction is what the step left, p + 2, unless the instruction is a jump, a call, a return or a skip
(R51, R61). -/
def Obligations.OnlyControlFlowMovesPc : Prop :=
  ∀ (i : Instr) (s t : State), exec i s = .next t → t.pc ≠ s.pc →
    (∃ nnn, i = .jp nnn ∨ i = .call nnn ∨ i = .jpV0 nnn) ∨ i = .ret ∨
    (∃ x kk, i = .seImm x kk ∨ i = .sneImm x kk) ∨ (∃ x y, i = .seReg x y ∨ i = .sneReg x y) ∨
    ∃ x, i = .skp x ∨ i = .sknp x

/-- Faults are precise: an instruction that sets the latch changes nothing else, and the record names its address and its
opcode (R39, R95, R97): the spec's decisions D15, D26 and D28. That the record's pc is pc - 2 and its opcode the encoding is
assumption 12. -/
def Obligations.FaultsArePrecise : Prop :=
  ∀ (i : Instr) (s t : State), exec i s = .next t → t.fault ≠ s.fault →
    ∃ code info, t = raised s code (encode i) info

/-- An instruction that sets the latch is one that the table of R96 names for code 2, 4, 5 or 6, under the table's whole
condition and with the table's info: an empty stack; a full stack; a set bit of the sprite that lands out of contract, with its
coordinates before wrapping; an address above 0xFFF among those the instruction uses (R38), with the first such address. Every
other instruction, the skips, shifts and arithmetic among them, raises nothing. Codes 5 and 6 are the spec's decisions D9 and
D1, and that the address recorded is the first its decision D28. -/
def Obligations.FaultCauses : Prop :=
  ∀ (i : Instr) (s t : State), exec i s = .next t → s.fault = none → ∀ r, t.fault = some r →
    (r.code = .stackUnderflow ∧ r.info = .none ∧ i = .ret ∧ s.stack = []) ∨
    (r.code = .stackOverflow ∧ r.info = .none ∧ (∃ nnn, i = .call nnn) ∧ s.stack.length = s.params.stackCapacity) ∨
    (r.code = .coordinateOutOfContract ∧ s.params.coordPolicy = .fault ∧
      ∃ x y n row col, i = .drw x y n ∧ row < n.toNat ∧ col < 8 ∧ spriteBit s row col = true ∧
        ¬ BitInContract s x y row col ∧
        r.info = .coords ((readV s x).toNat + col : Nat) ((readV s y).toNat + row : Nat)) ∨
    (r.code = .addressOutOfRange ∧ s.params.addrPolicy = .fault ∧ r.info = .address (max (baseI s) 0x1000) ∧
      ((∃ x, i = .ldB x ∧ ¬ AddrsOk s (baseI s) 3) ∨
        (∃ x, (i = .stRegs x ∨ i = .ldRegs x) ∧ ¬ AddrsOk s (baseI s) (x.toNat + 1)) ∨
        ∃ x y n, i = .drw x y n ∧ ¬ AddrsOk s (baseI s) n.toNat))

/-- Once a fault is latched, every step keeps that very record, unless the host constructs a new core (R24, R97, R100): the
spec's decision D14. -/
def Obligations.FaultLatchIsSticky : Prop :=
  ∀ s t : State, s.fault ≠ none → step s = .next t →
    t.fault = s.fault ∨ (s.batch = none ∧ ∃ rest, s.inputs = .construct :: rest)

/-- No step writes a parameter (R28). That State carries them is the model's choice (assumption 1). -/
def Obligations.ParametersNeverChange : Prop :=
  ∀ s t : State, step s = .next t → t.params = s.params

/-- The invariant holds right after construction (R13, R18, R23, R29). -/
def Obligations.InvariantAtReset : Prop := State.reset.Inv

/-- Every step, from every state that meets the invariant, leaves a state that meets it: memory stays canonical and in its
4096 cells, `wait_reg` is set exactly while paused, the stack stays within its capacity, the latch holds only records R96
allows, and a halted core is not paused (R13, R18, R23, R96, R103). -/
def Obligations.StepKeepsTheInvariant : Prop :=
  ∀ s t : State, s.Inv → step s = .next t → t.Inv
end

