-- ==== Sys2Proof/Laws/Decode.lean ====
section
/-! SUPPORT. The layout of R45 as arithmetic: the number of a word laid out from its fields, and the fields of such a word. -/

namespace Sys2Proof

/-- Concatenation puts the left part on the high side (R8). -/
theorem toNat_concat {m n : Nat} (a : BitVec m) (b : BitVec n) : (a ++ b).toNat = a.toNat * 2 ^ n + b.toNat := by
  rw [BitVec.toNat_append, ← Nat.shiftLeft_add_eq_or_of_lt b.isLt, Nat.shiftLeft_eq]

theorem toNat_wordXKK (t x : Nibble) (kk : Byte) :
    (wordXKK t x kk).toNat = t.toNat * 4096 + x.toNat * 256 + kk.toNat := by
  refine (toNat_concat (t ++ x) kk).trans ?_
  rw [toNat_concat t x]; omega

theorem toNat_wordXYN (t x y n : Nibble) :
    (wordXYN t x y n).toNat = t.toNat * 4096 + x.toNat * 256 + y.toNat * 16 + n.toNat := by
  refine (toNat_concat (t ++ x ++ y) n).trans ?_
  rw [toNat_concat (t ++ x) y, toNat_concat t x]; omega

theorem toNat_wordNNN (t : Nibble) (nnn : Addr12) : (wordNNN t nnn).toNat = t.toNat * 4096 + nnn.toNat :=
  toNat_concat t nnn

theorem toNat_wordOfBytes (hi lo : Byte) : (wordOfBytes hi lo).toNat = hi.toNat * 256 + lo.toNat :=
  toNat_concat hi lo

theorem toNat_fieldT (op : Word) : (fieldT op).toNat = op.toNat / 4096 := by
  simp only [fieldT, BitVec.extractLsb'_toNat, Nat.shiftRight_eq_div_pow]; omega

theorem toNat_fieldX (op : Word) : (fieldX op).toNat = op.toNat / 256 % 16 := by
  simp only [fieldX, BitVec.extractLsb'_toNat, Nat.shiftRight_eq_div_pow]

theorem toNat_fieldY (op : Word) : (fieldY op).toNat = op.toNat / 16 % 16 := by
  simp only [fieldY, BitVec.extractLsb'_toNat, Nat.shiftRight_eq_div_pow]

theorem toNat_fieldN (op : Word) : (fieldN op).toNat = op.toNat % 16 := by
  simp only [fieldN, BitVec.extractLsb'_toNat, Nat.shiftRight_eq_div_pow]; omega

theorem toNat_fieldKK (op : Word) : (fieldKK op).toNat = op.toNat % 256 := by
  simp only [fieldKK, BitVec.extractLsb'_toNat, Nat.shiftRight_eq_div_pow]; omega

theorem toNat_fieldNNN (op : Word) : (fieldNNN op).toNat = op.toNat % 4096 := by
  simp only [fieldNNN, BitVec.extractLsb'_toNat, Nat.shiftRight_eq_div_pow]; omega

theorem toNat_highByte (w : Word) : (highByte w).toNat = w.toNat / 256 := by
  simp only [highByte, BitVec.extractLsb'_toNat, Nat.shiftRight_eq_div_pow]; omega

theorem toNat_lowByte (w : Word) : (lowByte w).toNat = w.toNat % 256 := by
  simp only [lowByte, BitVec.extractLsb'_toNat, Nat.shiftRight_eq_div_pow]; omega

/-- Laying a word out as two bytes and reading it back (R35, R36). -/
@[simp] theorem wordOfBytes_high_low (w : Word) : wordOfBytes (highByte w) (lowByte w) = w := by
  apply BitVec.eq_of_toNat_eq
  rw [toNat_wordOfBytes, toNat_highByte, toNat_lowByte]; omega

@[simp] theorem fieldT_wordXKK (t x : Nibble) (kk : Byte) : fieldT (wordXKK t x kk) = t := by
  apply BitVec.eq_of_toNat_eq; rw [toNat_fieldT, toNat_wordXKK]; omega

@[simp] theorem fieldX_wordXKK (t x : Nibble) (kk : Byte) : fieldX (wordXKK t x kk) = x := by
  apply BitVec.eq_of_toNat_eq; rw [toNat_fieldX, toNat_wordXKK]; omega

@[simp] theorem fieldKK_wordXKK (t x : Nibble) (kk : Byte) : fieldKK (wordXKK t x kk) = kk := by
  apply BitVec.eq_of_toNat_eq; rw [toNat_fieldKK, toNat_wordXKK]; omega

@[simp] theorem fieldT_wordXYN (t x y n : Nibble) : fieldT (wordXYN t x y n) = t := by
  apply BitVec.eq_of_toNat_eq; rw [toNat_fieldT, toNat_wordXYN]; omega

@[simp] theorem fieldX_wordXYN (t x y n : Nibble) : fieldX (wordXYN t x y n) = x := by
  apply BitVec.eq_of_toNat_eq; rw [toNat_fieldX, toNat_wordXYN]; omega

@[simp] theorem fieldY_wordXYN (t x y n : Nibble) : fieldY (wordXYN t x y n) = y := by
  apply BitVec.eq_of_toNat_eq; rw [toNat_fieldY, toNat_wordXYN]; omega

@[simp] theorem fieldN_wordXYN (t x y n : Nibble) : fieldN (wordXYN t x y n) = n := by
  apply BitVec.eq_of_toNat_eq; rw [toNat_fieldN, toNat_wordXYN]; omega

@[simp] theorem fieldT_wordNNN (t : Nibble) (nnn : Addr12) : fieldT (wordNNN t nnn) = t := by
  apply BitVec.eq_of_toNat_eq; rw [toNat_fieldT, toNat_wordNNN]; omega

@[simp] theorem fieldNNN_wordNNN (t : Nibble) (nnn : Addr12) : fieldNNN (wordNNN t nnn) = nnn := by
  apply BitVec.eq_of_toNat_eq; rw [toNat_fieldNNN, toNat_wordNNN]; omega

end Sys2Proof
end

