-- ==== Sys2Proof/Laws/State.lean ====
section
/-! SUPPORT. What each named update of State leaves unchanged: one lemma per field and update, true by rfl. -/

namespace Sys2Proof.Machine

/-! Writing a V register (R14) changes `v` only. -/

@[simp] theorem writeV_mem (s : State) (x : Nibble) (b : Byte) : (writeV s x b).mem = s.mem := rfl
@[simp] theorem writeV_i (s : State) (x : Nibble) (b : Byte) : (writeV s x b).i = s.i := rfl
@[simp] theorem writeV_pc (s : State) (x : Nibble) (b : Byte) : (writeV s x b).pc = s.pc := rfl
@[simp] theorem writeV_stack (s : State) (x : Nibble) (b : Byte) : (writeV s x b).stack = s.stack := rfl
@[simp] theorem writeV_dt (s : State) (x : Nibble) (b : Byte) : (writeV s x b).dt = s.dt := rfl
@[simp] theorem writeV_st (s : State) (x : Nibble) (b : Byte) : (writeV s x b).st = s.st := rfl
@[simp] theorem writeV_disp (s : State) (x : Nibble) (b : Byte) : (writeV s x b).disp = s.disp := rfl
@[simp] theorem writeV_keys (s : State) (x : Nibble) (b : Byte) : (writeV s x b).keys = s.keys := rfl
@[simp] theorem writeV_paused (s : State) (x : Nibble) (b : Byte) : (writeV s x b).paused = s.paused := rfl
@[simp] theorem writeV_waitReg (s : State) (x : Nibble) (b : Byte) : (writeV s x b).waitReg = s.waitReg := rfl
@[simp] theorem writeV_fault (s : State) (x : Nibble) (b : Byte) : (writeV s x b).fault = s.fault := rfl
@[simp] theorem writeV_tone (s : State) (x : Nibble) (b : Byte) : (writeV s x b).tone = s.tone := rfl
@[simp] theorem writeV_params (s : State) (x : Nibble) (b : Byte) : (writeV s x b).params = s.params := rfl
@[simp] theorem writeV_batch (s : State) (x : Nibble) (b : Byte) : (writeV s x b).batch = s.batch := rfl
@[simp] theorem writeV_inputs (s : State) (x : Nibble) (b : Byte) : (writeV s x b).inputs = s.inputs := rfl
@[simp] theorem writeV_outputs (s : State) (x : Nibble) (b : Byte) : (writeV s x b).outputs = s.outputs := rfl
@[simp] theorem writeV_randDraws (s : State) (x : Nibble) (b : Byte) : (writeV s x b).randDraws = s.randDraws := rfl
@[simp] theorem writeV_keyDraws (s : State) (x : Nibble) (b : Byte) : (writeV s x b).keyDraws = s.keyDraws := rfl

/-! MemWrite changes one cell and no other state (R33). -/

@[simp] theorem memWrite_v (s : State) (a : Nat) (b : Byte) : (memWrite s a b).v = s.v := rfl
@[simp] theorem memWrite_i (s : State) (a : Nat) (b : Byte) : (memWrite s a b).i = s.i := rfl
@[simp] theorem memWrite_pc (s : State) (a : Nat) (b : Byte) : (memWrite s a b).pc = s.pc := rfl
@[simp] theorem memWrite_stack (s : State) (a : Nat) (b : Byte) : (memWrite s a b).stack = s.stack := rfl
@[simp] theorem memWrite_dt (s : State) (a : Nat) (b : Byte) : (memWrite s a b).dt = s.dt := rfl
@[simp] theorem memWrite_st (s : State) (a : Nat) (b : Byte) : (memWrite s a b).st = s.st := rfl
@[simp] theorem memWrite_disp (s : State) (a : Nat) (b : Byte) : (memWrite s a b).disp = s.disp := rfl
@[simp] theorem memWrite_keys (s : State) (a : Nat) (b : Byte) : (memWrite s a b).keys = s.keys := rfl
@[simp] theorem memWrite_paused (s : State) (a : Nat) (b : Byte) : (memWrite s a b).paused = s.paused := rfl
@[simp] theorem memWrite_waitReg (s : State) (a : Nat) (b : Byte) : (memWrite s a b).waitReg = s.waitReg := rfl
@[simp] theorem memWrite_fault (s : State) (a : Nat) (b : Byte) : (memWrite s a b).fault = s.fault := rfl
@[simp] theorem memWrite_tone (s : State) (a : Nat) (b : Byte) : (memWrite s a b).tone = s.tone := rfl
@[simp] theorem memWrite_params (s : State) (a : Nat) (b : Byte) : (memWrite s a b).params = s.params := rfl
@[simp] theorem memWrite_batch (s : State) (a : Nat) (b : Byte) : (memWrite s a b).batch = s.batch := rfl
@[simp] theorem memWrite_inputs (s : State) (a : Nat) (b : Byte) : (memWrite s a b).inputs = s.inputs := rfl
@[simp] theorem memWrite_outputs (s : State) (a : Nat) (b : Byte) : (memWrite s a b).outputs = s.outputs := rfl
@[simp] theorem memWrite_randDraws (s : State) (a : Nat) (b : Byte) : (memWrite s a b).randDraws = s.randDraws := rfl
@[simp] theorem memWrite_keyDraws (s : State) (a : Nat) (b : Byte) : (memWrite s a b).keyDraws = s.keyDraws := rfl

/-! The step's advance (R51) changes `pc` only. -/

@[simp] theorem advance_mem (s : State) : (advance s).mem = s.mem := rfl
@[simp] theorem advance_v (s : State) : (advance s).v = s.v := rfl
@[simp] theorem advance_i (s : State) : (advance s).i = s.i := rfl
@[simp] theorem advance_stack (s : State) : (advance s).stack = s.stack := rfl
@[simp] theorem advance_dt (s : State) : (advance s).dt = s.dt := rfl
@[simp] theorem advance_st (s : State) : (advance s).st = s.st := rfl
@[simp] theorem advance_disp (s : State) : (advance s).disp = s.disp := rfl
@[simp] theorem advance_keys (s : State) : (advance s).keys = s.keys := rfl
@[simp] theorem advance_paused (s : State) : (advance s).paused = s.paused := rfl
@[simp] theorem advance_waitReg (s : State) : (advance s).waitReg = s.waitReg := rfl
@[simp] theorem advance_fault (s : State) : (advance s).fault = s.fault := rfl
@[simp] theorem advance_tone (s : State) : (advance s).tone = s.tone := rfl
@[simp] theorem advance_params (s : State) : (advance s).params = s.params := rfl
@[simp] theorem advance_batch (s : State) : (advance s).batch = s.batch := rfl
@[simp] theorem advance_inputs (s : State) : (advance s).inputs = s.inputs := rfl
@[simp] theorem advance_outputs (s : State) : (advance s).outputs = s.outputs := rfl
@[simp] theorem advance_randDraws (s : State) : (advance s).randDraws = s.randDraws := rfl
@[simp] theorem advance_keyDraws (s : State) : (advance s).keyDraws = s.keyDraws := rfl

/-! A skip (R52) changes `pc` only. -/

@[simp] theorem skipIf_mem (c : Bool) (s : State) : (skipIf c s).mem = s.mem := rfl
@[simp] theorem skipIf_v (c : Bool) (s : State) : (skipIf c s).v = s.v := rfl
@[simp] theorem skipIf_i (c : Bool) (s : State) : (skipIf c s).i = s.i := rfl
@[simp] theorem skipIf_stack (c : Bool) (s : State) : (skipIf c s).stack = s.stack := rfl
@[simp] theorem skipIf_dt (c : Bool) (s : State) : (skipIf c s).dt = s.dt := rfl
@[simp] theorem skipIf_st (c : Bool) (s : State) : (skipIf c s).st = s.st := rfl
@[simp] theorem skipIf_disp (c : Bool) (s : State) : (skipIf c s).disp = s.disp := rfl
@[simp] theorem skipIf_keys (c : Bool) (s : State) : (skipIf c s).keys = s.keys := rfl
@[simp] theorem skipIf_paused (c : Bool) (s : State) : (skipIf c s).paused = s.paused := rfl
@[simp] theorem skipIf_waitReg (c : Bool) (s : State) : (skipIf c s).waitReg = s.waitReg := rfl
@[simp] theorem skipIf_fault (c : Bool) (s : State) : (skipIf c s).fault = s.fault := rfl
@[simp] theorem skipIf_tone (c : Bool) (s : State) : (skipIf c s).tone = s.tone := rfl
@[simp] theorem skipIf_params (c : Bool) (s : State) : (skipIf c s).params = s.params := rfl
@[simp] theorem skipIf_batch (c : Bool) (s : State) : (skipIf c s).batch = s.batch := rfl
@[simp] theorem skipIf_inputs (c : Bool) (s : State) : (skipIf c s).inputs = s.inputs := rfl
@[simp] theorem skipIf_outputs (c : Bool) (s : State) : (skipIf c s).outputs = s.outputs := rfl
@[simp] theorem skipIf_randDraws (c : Bool) (s : State) : (skipIf c s).randDraws = s.randDraws := rfl
@[simp] theorem skipIf_keyDraws (c : Bool) (s : State) : (skipIf c s).keyDraws = s.keyDraws := rfl

/-! Raising a fault (R97) changes the latch only. -/

@[simp] theorem latchFault_mem (c : FaultCode) (p : Word) (o : Option Word) (f : FaultInfo) (s : State) : (latchFault c p o f s).mem = s.mem := rfl
@[simp] theorem latchFault_v (c : FaultCode) (p : Word) (o : Option Word) (f : FaultInfo) (s : State) : (latchFault c p o f s).v = s.v := rfl
@[simp] theorem latchFault_i (c : FaultCode) (p : Word) (o : Option Word) (f : FaultInfo) (s : State) : (latchFault c p o f s).i = s.i := rfl
@[simp] theorem latchFault_pc (c : FaultCode) (p : Word) (o : Option Word) (f : FaultInfo) (s : State) : (latchFault c p o f s).pc = s.pc := rfl
@[simp] theorem latchFault_stack (c : FaultCode) (p : Word) (o : Option Word) (f : FaultInfo) (s : State) : (latchFault c p o f s).stack = s.stack := rfl
@[simp] theorem latchFault_dt (c : FaultCode) (p : Word) (o : Option Word) (f : FaultInfo) (s : State) : (latchFault c p o f s).dt = s.dt := rfl
@[simp] theorem latchFault_st (c : FaultCode) (p : Word) (o : Option Word) (f : FaultInfo) (s : State) : (latchFault c p o f s).st = s.st := rfl
@[simp] theorem latchFault_disp (c : FaultCode) (p : Word) (o : Option Word) (f : FaultInfo) (s : State) : (latchFault c p o f s).disp = s.disp := rfl
@[simp] theorem latchFault_keys (c : FaultCode) (p : Word) (o : Option Word) (f : FaultInfo) (s : State) : (latchFault c p o f s).keys = s.keys := rfl
@[simp] theorem latchFault_paused (c : FaultCode) (p : Word) (o : Option Word) (f : FaultInfo) (s : State) : (latchFault c p o f s).paused = s.paused := rfl
@[simp] theorem latchFault_waitReg (c : FaultCode) (p : Word) (o : Option Word) (f : FaultInfo) (s : State) : (latchFault c p o f s).waitReg = s.waitReg := rfl
@[simp] theorem latchFault_tone (c : FaultCode) (p : Word) (o : Option Word) (f : FaultInfo) (s : State) : (latchFault c p o f s).tone = s.tone := rfl
@[simp] theorem latchFault_params (c : FaultCode) (p : Word) (o : Option Word) (f : FaultInfo) (s : State) : (latchFault c p o f s).params = s.params := rfl
@[simp] theorem latchFault_batch (c : FaultCode) (p : Word) (o : Option Word) (f : FaultInfo) (s : State) : (latchFault c p o f s).batch = s.batch := rfl
@[simp] theorem latchFault_inputs (c : FaultCode) (p : Word) (o : Option Word) (f : FaultInfo) (s : State) : (latchFault c p o f s).inputs = s.inputs := rfl
@[simp] theorem latchFault_outputs (c : FaultCode) (p : Word) (o : Option Word) (f : FaultInfo) (s : State) : (latchFault c p o f s).outputs = s.outputs := rfl
@[simp] theorem latchFault_randDraws (c : FaultCode) (p : Word) (o : Option Word) (f : FaultInfo) (s : State) : (latchFault c p o f s).randDraws = s.randDraws := rfl
@[simp] theorem latchFault_keyDraws (c : FaultCode) (p : Word) (o : Option Word) (f : FaultInfo) (s : State) : (latchFault c p o f s).keyDraws = s.keyDraws := rfl

/-! clearDisplay writes nothing but the display (R109). -/

@[simp] theorem clearDisplay_mem (s : State) : (clearDisplay s).mem = s.mem := rfl
@[simp] theorem clearDisplay_v (s : State) : (clearDisplay s).v = s.v := rfl
@[simp] theorem clearDisplay_i (s : State) : (clearDisplay s).i = s.i := rfl
@[simp] theorem clearDisplay_pc (s : State) : (clearDisplay s).pc = s.pc := rfl
@[simp] theorem clearDisplay_stack (s : State) : (clearDisplay s).stack = s.stack := rfl
@[simp] theorem clearDisplay_dt (s : State) : (clearDisplay s).dt = s.dt := rfl
@[simp] theorem clearDisplay_st (s : State) : (clearDisplay s).st = s.st := rfl
@[simp] theorem clearDisplay_keys (s : State) : (clearDisplay s).keys = s.keys := rfl
@[simp] theorem clearDisplay_paused (s : State) : (clearDisplay s).paused = s.paused := rfl
@[simp] theorem clearDisplay_waitReg (s : State) : (clearDisplay s).waitReg = s.waitReg := rfl
@[simp] theorem clearDisplay_fault (s : State) : (clearDisplay s).fault = s.fault := rfl
@[simp] theorem clearDisplay_tone (s : State) : (clearDisplay s).tone = s.tone := rfl
@[simp] theorem clearDisplay_params (s : State) : (clearDisplay s).params = s.params := rfl
@[simp] theorem clearDisplay_batch (s : State) : (clearDisplay s).batch = s.batch := rfl
@[simp] theorem clearDisplay_inputs (s : State) : (clearDisplay s).inputs = s.inputs := rfl
@[simp] theorem clearDisplay_outputs (s : State) : (clearDisplay s).outputs = s.outputs := rfl
@[simp] theorem clearDisplay_randDraws (s : State) : (clearDisplay s).randDraws = s.randDraws := rfl
@[simp] theorem clearDisplay_keyDraws (s : State) : (clearDisplay s).keyDraws = s.keyDraws := rfl

/-! The timer decrement (R104) changes the timers only. -/

@[simp] theorem timerDecrement_mem (s : State) : (timerDecrement s).mem = s.mem := rfl
@[simp] theorem timerDecrement_v (s : State) : (timerDecrement s).v = s.v := rfl
@[simp] theorem timerDecrement_i (s : State) : (timerDecrement s).i = s.i := rfl
@[simp] theorem timerDecrement_pc (s : State) : (timerDecrement s).pc = s.pc := rfl
@[simp] theorem timerDecrement_stack (s : State) : (timerDecrement s).stack = s.stack := rfl
@[simp] theorem timerDecrement_disp (s : State) : (timerDecrement s).disp = s.disp := rfl
@[simp] theorem timerDecrement_keys (s : State) : (timerDecrement s).keys = s.keys := rfl
@[simp] theorem timerDecrement_paused (s : State) : (timerDecrement s).paused = s.paused := rfl
@[simp] theorem timerDecrement_waitReg (s : State) : (timerDecrement s).waitReg = s.waitReg := rfl
@[simp] theorem timerDecrement_fault (s : State) : (timerDecrement s).fault = s.fault := rfl
@[simp] theorem timerDecrement_tone (s : State) : (timerDecrement s).tone = s.tone := rfl
@[simp] theorem timerDecrement_params (s : State) : (timerDecrement s).params = s.params := rfl
@[simp] theorem timerDecrement_batch (s : State) : (timerDecrement s).batch = s.batch := rfl
@[simp] theorem timerDecrement_inputs (s : State) : (timerDecrement s).inputs = s.inputs := rfl
@[simp] theorem timerDecrement_outputs (s : State) : (timerDecrement s).outputs = s.outputs := rfl
@[simp] theorem timerDecrement_randDraws (s : State) : (timerDecrement s).randDraws = s.randDraws := rfl
@[simp] theorem timerDecrement_keyDraws (s : State) : (timerDecrement s).keyDraws = s.keyDraws := rfl

/-! The tone update (R105) changes the tone only. -/

@[simp] theorem toneUpdate_mem (s : State) : (toneUpdate s).mem = s.mem := rfl
@[simp] theorem toneUpdate_v (s : State) : (toneUpdate s).v = s.v := rfl
@[simp] theorem toneUpdate_i (s : State) : (toneUpdate s).i = s.i := rfl
@[simp] theorem toneUpdate_pc (s : State) : (toneUpdate s).pc = s.pc := rfl
@[simp] theorem toneUpdate_stack (s : State) : (toneUpdate s).stack = s.stack := rfl
@[simp] theorem toneUpdate_dt (s : State) : (toneUpdate s).dt = s.dt := rfl
@[simp] theorem toneUpdate_st (s : State) : (toneUpdate s).st = s.st := rfl
@[simp] theorem toneUpdate_disp (s : State) : (toneUpdate s).disp = s.disp := rfl
@[simp] theorem toneUpdate_keys (s : State) : (toneUpdate s).keys = s.keys := rfl
@[simp] theorem toneUpdate_paused (s : State) : (toneUpdate s).paused = s.paused := rfl
@[simp] theorem toneUpdate_waitReg (s : State) : (toneUpdate s).waitReg = s.waitReg := rfl
@[simp] theorem toneUpdate_fault (s : State) : (toneUpdate s).fault = s.fault := rfl
@[simp] theorem toneUpdate_params (s : State) : (toneUpdate s).params = s.params := rfl
@[simp] theorem toneUpdate_batch (s : State) : (toneUpdate s).batch = s.batch := rfl
@[simp] theorem toneUpdate_inputs (s : State) : (toneUpdate s).inputs = s.inputs := rfl
@[simp] theorem toneUpdate_outputs (s : State) : (toneUpdate s).outputs = s.outputs := rfl
@[simp] theorem toneUpdate_randDraws (s : State) : (toneUpdate s).randDraws = s.randDraws := rfl
@[simp] theorem toneUpdate_keyDraws (s : State) : (toneUpdate s).keyDraws = s.keyDraws := rfl

/-! The frame signal (R106) carries no state but the host's record. -/

@[simp] theorem emitFrame_mem (s : State) : (emitFrame s).mem = s.mem := rfl
@[simp] theorem emitFrame_v (s : State) : (emitFrame s).v = s.v := rfl
@[simp] theorem emitFrame_i (s : State) : (emitFrame s).i = s.i := rfl
@[simp] theorem emitFrame_pc (s : State) : (emitFrame s).pc = s.pc := rfl
@[simp] theorem emitFrame_stack (s : State) : (emitFrame s).stack = s.stack := rfl
@[simp] theorem emitFrame_dt (s : State) : (emitFrame s).dt = s.dt := rfl
@[simp] theorem emitFrame_st (s : State) : (emitFrame s).st = s.st := rfl
@[simp] theorem emitFrame_disp (s : State) : (emitFrame s).disp = s.disp := rfl
@[simp] theorem emitFrame_keys (s : State) : (emitFrame s).keys = s.keys := rfl
@[simp] theorem emitFrame_paused (s : State) : (emitFrame s).paused = s.paused := rfl
@[simp] theorem emitFrame_waitReg (s : State) : (emitFrame s).waitReg = s.waitReg := rfl
@[simp] theorem emitFrame_fault (s : State) : (emitFrame s).fault = s.fault := rfl
@[simp] theorem emitFrame_tone (s : State) : (emitFrame s).tone = s.tone := rfl
@[simp] theorem emitFrame_params (s : State) : (emitFrame s).params = s.params := rfl
@[simp] theorem emitFrame_batch (s : State) : (emitFrame s).batch = s.batch := rfl
@[simp] theorem emitFrame_inputs (s : State) : (emitFrame s).inputs = s.inputs := rfl
@[simp] theorem emitFrame_randDraws (s : State) : (emitFrame s).randDraws = s.randDraws := rfl
@[simp] theorem emitFrame_keyDraws (s : State) : (emitFrame s).keyDraws = s.keyDraws := rfl

/-! A reply to the host changes no state of the core. -/

@[simp] theorem reply_mem (r : HostReply) (s : State) : (reply r s).mem = s.mem := rfl
@[simp] theorem reply_v (r : HostReply) (s : State) : (reply r s).v = s.v := rfl
@[simp] theorem reply_i (r : HostReply) (s : State) : (reply r s).i = s.i := rfl
@[simp] theorem reply_pc (r : HostReply) (s : State) : (reply r s).pc = s.pc := rfl
@[simp] theorem reply_stack (r : HostReply) (s : State) : (reply r s).stack = s.stack := rfl
@[simp] theorem reply_dt (r : HostReply) (s : State) : (reply r s).dt = s.dt := rfl
@[simp] theorem reply_st (r : HostReply) (s : State) : (reply r s).st = s.st := rfl
@[simp] theorem reply_disp (r : HostReply) (s : State) : (reply r s).disp = s.disp := rfl
@[simp] theorem reply_keys (r : HostReply) (s : State) : (reply r s).keys = s.keys := rfl
@[simp] theorem reply_paused (r : HostReply) (s : State) : (reply r s).paused = s.paused := rfl
@[simp] theorem reply_waitReg (r : HostReply) (s : State) : (reply r s).waitReg = s.waitReg := rfl
@[simp] theorem reply_fault (r : HostReply) (s : State) : (reply r s).fault = s.fault := rfl
@[simp] theorem reply_tone (r : HostReply) (s : State) : (reply r s).tone = s.tone := rfl
@[simp] theorem reply_params (r : HostReply) (s : State) : (reply r s).params = s.params := rfl
@[simp] theorem reply_batch (r : HostReply) (s : State) : (reply r s).batch = s.batch := rfl
@[simp] theorem reply_inputs (r : HostReply) (s : State) : (reply r s).inputs = s.inputs := rfl
@[simp] theorem reply_randDraws (r : HostReply) (s : State) : (reply r s).randDraws = s.randDraws := rfl
@[simp] theorem reply_keyDraws (r : HostReply) (s : State) : (reply r s).keyDraws = s.keyDraws := rfl

/-! keyDown and keyUp change nothing else (R111). -/

@[simp] theorem setKey_mem (k : Fin 16) (d : Bool) (s : State) : (setKey k d s).mem = s.mem := rfl
@[simp] theorem setKey_v (k : Fin 16) (d : Bool) (s : State) : (setKey k d s).v = s.v := rfl
@[simp] theorem setKey_i (k : Fin 16) (d : Bool) (s : State) : (setKey k d s).i = s.i := rfl
@[simp] theorem setKey_pc (k : Fin 16) (d : Bool) (s : State) : (setKey k d s).pc = s.pc := rfl
@[simp] theorem setKey_stack (k : Fin 16) (d : Bool) (s : State) : (setKey k d s).stack = s.stack := rfl
@[simp] theorem setKey_dt (k : Fin 16) (d : Bool) (s : State) : (setKey k d s).dt = s.dt := rfl
@[simp] theorem setKey_st (k : Fin 16) (d : Bool) (s : State) : (setKey k d s).st = s.st := rfl
@[simp] theorem setKey_disp (k : Fin 16) (d : Bool) (s : State) : (setKey k d s).disp = s.disp := rfl
@[simp] theorem setKey_paused (k : Fin 16) (d : Bool) (s : State) : (setKey k d s).paused = s.paused := rfl
@[simp] theorem setKey_waitReg (k : Fin 16) (d : Bool) (s : State) : (setKey k d s).waitReg = s.waitReg := rfl
@[simp] theorem setKey_fault (k : Fin 16) (d : Bool) (s : State) : (setKey k d s).fault = s.fault := rfl
@[simp] theorem setKey_tone (k : Fin 16) (d : Bool) (s : State) : (setKey k d s).tone = s.tone := rfl
@[simp] theorem setKey_params (k : Fin 16) (d : Bool) (s : State) : (setKey k d s).params = s.params := rfl
@[simp] theorem setKey_batch (k : Fin 16) (d : Bool) (s : State) : (setKey k d s).batch = s.batch := rfl
@[simp] theorem setKey_inputs (k : Fin 16) (d : Bool) (s : State) : (setKey k d s).inputs = s.inputs := rfl
@[simp] theorem setKey_outputs (k : Fin 16) (d : Bool) (s : State) : (setKey k d s).outputs = s.outputs := rfl
@[simp] theorem setKey_randDraws (k : Fin 16) (d : Bool) (s : State) : (setKey k d s).randDraws = s.randDraws := rfl
@[simp] theorem setKey_keyDraws (k : Fin 16) (d : Bool) (s : State) : (setKey k d s).keyDraws = s.keyDraws := rfl

/-! A draw of rand8 changes the draw counter only. -/

@[simp] theorem drawRand_mem (s : State) : (drawRand s).2.mem = s.mem := rfl
@[simp] theorem drawRand_v (s : State) : (drawRand s).2.v = s.v := rfl
@[simp] theorem drawRand_i (s : State) : (drawRand s).2.i = s.i := rfl
@[simp] theorem drawRand_pc (s : State) : (drawRand s).2.pc = s.pc := rfl
@[simp] theorem drawRand_stack (s : State) : (drawRand s).2.stack = s.stack := rfl
@[simp] theorem drawRand_dt (s : State) : (drawRand s).2.dt = s.dt := rfl
@[simp] theorem drawRand_st (s : State) : (drawRand s).2.st = s.st := rfl
@[simp] theorem drawRand_disp (s : State) : (drawRand s).2.disp = s.disp := rfl
@[simp] theorem drawRand_keys (s : State) : (drawRand s).2.keys = s.keys := rfl
@[simp] theorem drawRand_paused (s : State) : (drawRand s).2.paused = s.paused := rfl
@[simp] theorem drawRand_waitReg (s : State) : (drawRand s).2.waitReg = s.waitReg := rfl
@[simp] theorem drawRand_fault (s : State) : (drawRand s).2.fault = s.fault := rfl
@[simp] theorem drawRand_tone (s : State) : (drawRand s).2.tone = s.tone := rfl
@[simp] theorem drawRand_params (s : State) : (drawRand s).2.params = s.params := rfl
@[simp] theorem drawRand_batch (s : State) : (drawRand s).2.batch = s.batch := rfl
@[simp] theorem drawRand_inputs (s : State) : (drawRand s).2.inputs = s.inputs := rfl
@[simp] theorem drawRand_outputs (s : State) : (drawRand s).2.outputs = s.outputs := rfl
@[simp] theorem drawRand_keyDraws (s : State) : (drawRand s).2.keyDraws = s.keyDraws := rfl

/-! A draw of keydraw changes the draw counter only. -/

@[simp] theorem drawKey_mem (s : State) : (drawKey s).2.mem = s.mem := rfl
@[simp] theorem drawKey_v (s : State) : (drawKey s).2.v = s.v := rfl
@[simp] theorem drawKey_i (s : State) : (drawKey s).2.i = s.i := rfl
@[simp] theorem drawKey_pc (s : State) : (drawKey s).2.pc = s.pc := rfl
@[simp] theorem drawKey_stack (s : State) : (drawKey s).2.stack = s.stack := rfl
@[simp] theorem drawKey_dt (s : State) : (drawKey s).2.dt = s.dt := rfl
@[simp] theorem drawKey_st (s : State) : (drawKey s).2.st = s.st := rfl
@[simp] theorem drawKey_disp (s : State) : (drawKey s).2.disp = s.disp := rfl
@[simp] theorem drawKey_keys (s : State) : (drawKey s).2.keys = s.keys := rfl
@[simp] theorem drawKey_paused (s : State) : (drawKey s).2.paused = s.paused := rfl
@[simp] theorem drawKey_waitReg (s : State) : (drawKey s).2.waitReg = s.waitReg := rfl
@[simp] theorem drawKey_fault (s : State) : (drawKey s).2.fault = s.fault := rfl
@[simp] theorem drawKey_tone (s : State) : (drawKey s).2.tone = s.tone := rfl
@[simp] theorem drawKey_params (s : State) : (drawKey s).2.params = s.params := rfl
@[simp] theorem drawKey_batch (s : State) : (drawKey s).2.batch = s.batch := rfl
@[simp] theorem drawKey_inputs (s : State) : (drawKey s).2.inputs = s.inputs := rfl
@[simp] theorem drawKey_outputs (s : State) : (drawKey s).2.outputs = s.outputs := rfl
@[simp] theorem drawKey_randDraws (s : State) : (drawKey s).2.randDraws = s.randDraws := rfl

/-! The fields the updates write. -/

@[simp] theorem advance_pc (s : State) : (advance s).pc = s.pc + 2 := rfl
@[simp] theorem skipIf_pc (c : Bool) (s : State) : (skipIf c s).pc = if c then s.pc + 2 else s.pc := rfl
@[simp] theorem latchFault_fault (c : FaultCode) (p : Word) (o : Option Word) (f : FaultInfo) (s : State) :
    (latchFault c p o f s).fault = some { code := c, pc := p, opcode := o, info := f } := rfl
@[simp] theorem toneUpdate_tone (s : State) : (toneUpdate s).tone = decide (0 < s.st) := rfl
@[simp] theorem emitFrame_outputs (s : State) : (emitFrame s).outputs = s.outputs ++ [.frameReady] := rfl
@[simp] theorem reply_outputs (r : HostReply) (s : State) : (reply r s).outputs = s.outputs ++ [r] := rfl
@[simp] theorem setKey_keys (k : Fin 16) (d : Bool) (s : State) : (setKey k d s).keys = s.keys.set k d := rfl
@[simp] theorem drawRand_draw (s : State) : (drawRand s).1 = Config.rand8 s.randDraws := rfl
@[simp] theorem drawRand_randDraws (s : State) : (drawRand s).2.randDraws = s.randDraws + 1 := rfl
@[simp] theorem drawKey_draw (s : State) : (drawKey s).1 = Config.keydraw s.keyDraws := rfl
@[simp] theorem drawKey_keyDraws (s : State) : (drawKey s).2.keyDraws = s.keyDraws + 1 := rfl

end Sys2Proof.Machine
end

