-- ==== Sys2Proof/Laws/Memory.lean ====
section
/-! SUPPORT. Memory: a read after a write, the canonical form, and what the runs of bytes do (R31 to R33, R38, R39). -/

namespace Sys2Proof.Machine

theorem cellRead_cellErase (m : List Host.Cell) (a b : Nat) :
    cellRead (cellErase m a) b = if b = a then emptyCell else cellRead m b := by
  induction m with
  | nil => simp [cellErase, cellRead]
  | cons c rest ih =>
    obtain ⟨k, w⟩ := c
    simp only [cellErase] at ih
    by_cases hk : k = a
    · subst hk
      by_cases hb : b = k
      · subst hb; simpa [cellErase] using ih
      · simp [cellErase, cellRead, ih, hb]
    · by_cases hb : b = k
      · subst hb; simp [cellErase, cellRead, hk]
      · simp [cellErase, cellRead, ih, hk, hb]

theorem cellRead_cellInsert (m : List Host.Cell) (a b : Nat) (v : Byte) :
    cellRead (cellInsert m a v) b = if b = a then v else cellRead m b := by
  induction m with
  | nil => simp [cellInsert, cellRead]
  | cons c rest ih =>
    obtain ⟨k, w⟩ := c
    simp only [cellInsert]
    split
    · simp [cellRead]
    · split
      · rename_i h; subst h; by_cases hb : b = a <;> simp [cellRead, hb]
      · by_cases hb : b = k
        · subst hb; simp_all [cellRead]; omega
        · simp [cellRead, ih, hb]

/-- Reading after writing one cell: the value at that cell, what was there before at every other (R32, R33). It holds of
every list of cells. -/
@[simp] theorem cellRead_cellWrite (m : List Host.Cell) (a b : Nat) (v : Byte) :
    cellRead (cellWrite m a v) b = if b = a then v else cellRead m b := by
  unfold cellWrite
  split
  · rename_i h; subst h; exact cellRead_cellErase m a b
  · exact cellRead_cellInsert m a b v

theorem memWfFrom_mono {lo lo' : Nat} {m : List Host.Cell} (h : lo' ≤ lo) (hm : memWfFrom lo m = true) :
    memWfFrom lo' m = true := by
  cases m with
  | nil => rfl
  | cons c rest =>
    simp only [memWfFrom, Bool.and_eq_true, decide_eq_true_eq] at hm ⊢
    exact ⟨⟨⟨by omega, hm.1.1.2⟩, hm.1.2⟩, hm.2⟩

theorem memWfFrom_cellErase {lo : Nat} {m : List Host.Cell} (a : Nat) (hm : memWfFrom lo m = true) :
    memWfFrom lo (cellErase m a) = true := by
  induction m generalizing lo with
  | nil => rfl
  | cons c rest ih =>
    obtain ⟨k, w⟩ := c
    simp only [memWfFrom, Bool.and_eq_true, decide_eq_true_eq] at hm
    have h2 := ih hm.2
    by_cases hk : k = a
    · have : cellErase ((k, w) :: rest) a = cellErase rest a := by simp [cellErase, hk]
      rw [this]; exact memWfFrom_mono (by omega) h2
    · have : cellErase ((k, w) :: rest) a = (k, w) :: cellErase rest a := by simp [cellErase, hk]
      rw [this]; simp [memWfFrom, hm.1, h2]

theorem memWfFrom_cellInsert {lo : Nat} {m : List Host.Cell} {a : Nat} {v : Byte} (hlo : lo ≤ a) (ha : a < memSize)
    (hv : v ≠ emptyCell) (hm : memWfFrom lo m = true) : memWfFrom lo (cellInsert m a v) = true := by
  induction m generalizing lo with
  | nil => simp [cellInsert, memWfFrom, hlo, ha, hv]
  | cons c rest ih =>
    obtain ⟨k, w⟩ := c
    simp only [memWfFrom, Bool.and_eq_true, decide_eq_true_eq] at hm
    simp only [cellInsert]
    split
    · rename_i h; simp [memWfFrom, hlo, ha, hv, hm.1.1.2, hm.1.2, hm.2]; omega
    · split
      · rename_i h; subst h; simp [memWfFrom, hlo, ha, hv, hm.2]
      · have := ih (lo := k + 1) (by omega) hm.2
        simp [memWfFrom, hm.1, this]

/-- Writing a cell in range keeps the canonical form. -/
theorem memWf_cellWrite {m : List Host.Cell} {a : Nat} (v : Byte) (ha : a < memSize) (hm : memWf m = true) :
    memWf (cellWrite m a v) = true := by
  unfold cellWrite memWf at *
  split
  · exact memWfFrom_cellErase a hm
  · rename_i h; exact memWfFrom_cellInsert (Nat.zero_le a) ha h hm

theorem cellOf_lt (a : Nat) : cellOf a < memSize := Nat.mod_lt _ (by decide)

/-- MemWrite keeps the canonical form (R33). -/
theorem memWf_memWrite {s : State} (a : Nat) (v : Byte) (h : memWf s.mem = true) : memWf (memWrite s a v).mem = true :=
  memWf_cellWrite v (cellOf_lt a) h

/-- MemRead after MemWrite (R32, R33). -/
theorem memRead_memWrite (s : State) (a b : Nat) (v : Byte) :
    memRead (memWrite s a v) b = if cellOf b = cellOf a then v else memRead s b := by
  simp [memRead, memWrite]

/-- storeBytes writes memory and nothing else. -/
theorem storeBytes_only (s : State) (a : Nat) (l : List Byte) : storeBytes s a l = { s with mem := (storeBytes s a l).mem } := by
  induction l generalizing s a with
  | nil => rfl
  | cons b rest ih => rw [storeBytes, ih]; rfl

theorem memWf_storeBytes {s : State} (a : Nat) (l : List Byte) (h : memWf s.mem = true) :
    memWf (storeBytes s a l).mem = true := by
  induction l generalizing s a with
  | nil => exact h
  | cons b rest ih => exact ih (a + 1) (memWf_memWrite a b h)

/-- A run of bytes leaves every cell outside the run unchanged. -/
theorem cellRead_storeBytes_other (s : State) (a : Nat) (l : List Byte) (c : Nat)
    (h : ∀ k, k < l.length → c ≠ cellOf (a + k)) : cellRead (storeBytes s a l).mem c = cellRead s.mem c := by
  induction l generalizing s a with
  | nil => rfl
  | cons b rest ih =>
    have h0 := h 0 (by simp)
    rw [storeBytes, ih]
    · simp [memWrite]; intro hc; exact absurd hc h0
    · intro k hk
      have := h (k + 1) (by simpa using hk)
      rwa [show a + 1 + k = a + (k + 1) by omega]

/-- A run of at most 4096 bytes puts byte k into the cell of address a + k. -/
theorem cellRead_storeBytes (s : State) (a : Nat) (l : List Byte) (hl : l.length ≤ memSize) (k : Nat) (hk : k < l.length) :
    cellRead (storeBytes s a l).mem (cellOf (a + k)) = l[k] := by
  induction l generalizing s a k with
  | nil => simp at hk
  | cons b rest ih =>
    simp only [List.length_cons] at hl hk
    rw [storeBytes]
    cases k with
    | zero =>
      rw [cellRead_storeBytes_other]
      · simp [memWrite]
      · intro j hj
        unfold cellOf memSize at *; omega
    | succ k =>
      rw [show a + (k + 1) = a + 1 + k by omega, ih _ _ (by omega) _ (by omega)]
      rfl

@[simp] theorem length_readBytes (s : State) (a n : Nat) : (readBytes s a n).length = n := by simp [readBytes]

@[simp] theorem getElem_readBytes (s : State) (a n k : Nat) (h : k < (readBytes s a n).length) :
    (readBytes s a n)[k] = memRead s (a + k) := by simp [readBytes]

/-- The loads' run of cell writes (R121, R122): byte k lands in cell a + k. -/
theorem cellRead_loadBytes (m : List Host.Cell) (a : Nat) (l : List Byte) (c : Nat) :
    cellRead (loadBytes m a l) c = if h : a ≤ c ∧ c - a < l.length then l[c - a]'h.2 else cellRead m c := by
  induction l generalizing m a with
  | nil => simp [loadBytes]
  | cons b rest ih =>
    rw [loadBytes, ih]
    simp only [cellRead_cellWrite, List.length_cons]
    by_cases hc : c = a
    · subst hc; simp
    · by_cases hlt : a ≤ c
      · obtain ⟨d, rfl⟩ : ∃ d, c = a + 1 + d := ⟨c - a - 1, by omega⟩
        have h1 : a + 1 + d - (a + 1) = d := by omega
        have h2 : a + 1 + d - a = d + 1 := by omega
        simp only [h1, h2]
        by_cases hd : d < rest.length
        · rw [dif_pos ⟨by omega, hd⟩, dif_pos ⟨by omega, by omega⟩]; simp
        · rw [dif_neg (by omega), dif_neg (by omega), if_neg (by omega)]
      · rw [dif_neg (by omega), dif_neg (by omega), if_neg hc]

theorem memWf_loadBytes {m : List Host.Cell} (a : Nat) (l : List Byte) (hl : a + l.length ≤ memSize) (h : memWf m = true) :
    memWf (loadBytes m a l) = true := by
  induction l generalizing m a with
  | nil => exact h
  | cons b rest ih =>
    simp only [List.length_cons] at hl
    exact ih (a + 1) (by omega) (memWf_cellWrite b (by omega) h)

/-- Which runs of addresses raise nothing (R31, R39). -/
theorem firstBadAddr_none {p : AddrPolicy} {base count : Nat} :
    firstBadAddr p base count = none ↔ (p = .wrap ∨ base + count ≤ 4096 ∨ count = 0) := by
  unfold firstBadAddr
  rw [List.find?_eq_none]
  cases p with
  | wrap => simp [addrFaults]
  | fault =>
    simp only [List.mem_map, List.mem_range, addrFaults, decide_eq_true_eq]
    constructor
    · intro h
      by_cases h0 : count = 0
      · exact Or.inr (Or.inr h0)
      · have := h (base + (count - 1)) ⟨count - 1, by omega, rfl⟩
        exact Or.inr (Or.inl (by omega))
    · rintro h x ⟨k, hk, rfl⟩
      rcases h with h | h | h
      · cases h
      · omega
      · omega

/-- Which address AddressOutOfRange names: the first above 0xFFF (R31, R39). -/
theorem firstBadAddr_some {p : AddrPolicy} {base count a : Nat} :
    firstBadAddr p base count = some a ↔ p = .fault ∧ 4096 < base + count ∧ 0 < count ∧ a = max base 4096 := by
  cases p with
  | wrap =>
    simp only [firstBadAddr, reduceCtorEq, false_and, iff_false]
    intro h; exact absurd (List.find?_some h) (by simp [addrFaults])
  | fault =>
    by_cases hb : 4096 < base + count ∧ 0 < count
    · have key : firstBadAddr .fault base count = some (max base 4096) := by
        unfold firstBadAddr
        rw [List.find?_eq_some_iff_append]
        refine ⟨by simp [addrFaults], (List.range (max base 4096 - base)).map (base + ·),
          ((List.range (count - (max base 4096 - base) - 1)).map fun k => max base 4096 + 1 + k), ?_, ?_⟩
        · apply List.ext_getElem
          · simp; omega
          · intro n h1 h2
            simp only [List.length_map, List.length_range] at h1
            simp only [List.getElem_map, List.getElem_range, List.getElem_append, List.getElem_cons, List.length_map,
              List.length_range]
            split
            · rfl
            · split <;> omega
        · intro x hx
          simp only [List.mem_map, List.mem_range] at hx
          obtain ⟨k, hk, rfl⟩ := hx
          simp [addrFaults]; omega
      rw [key]; simp [hb.1, hb.2, eq_comm]
    · have : firstBadAddr .fault base count = none := firstBadAddr_none.2 (by omega)
      rw [this]; simp; omega

end Sys2Proof.Machine
end

