-- ==== Sys2Proof/Laws/Ops.lean ====
section
/-! SUPPORT. Registers, the stack, the fault latch, the key read and the flag writes: what each shared operation can do. -/

namespace Sys2Proof.Machine

/-! ### The address check (R31, R39) -/

/-- The addresses of a run raise nothing exactly when `AddrsOk` says so (R31, R39). -/
theorem firstBadAddr_eq_none {s : State} {base n : Nat} :
    firstBadAddr s.params.addrPolicy base n = none ↔ AddrsOk s base n := by
  rw [firstBadAddr_none]; unfold AddrsOk
  constructor <;> rintro (h | h | h) <;> first | exact Or.inl h | exact Or.inr (by omega)

/-- Otherwise the first address above 0xFFF is the one that raises (R31, R39). -/
theorem firstBadAddr_of_not_addrsOk {s : State} {base n : Nat} (h : ¬ AddrsOk s base n) :
    firstBadAddr s.params.addrPolicy base n = some (max base 4096) := by
  rw [firstBadAddr_some]
  unfold AddrsOk at h
  cases hp : s.params.addrPolicy with
  | wrap => simp [hp] at h
  | fault => simp [hp] at h; exact ⟨rfl, by omega, by omega, rfl⟩

/-- What a raised address says: the run is not all right, and the address is the first above 0xFFF (R31, R39). -/
theorem firstBadAddr_eq_some {s : State} {base n a : Nat} (h : firstBadAddr s.params.addrPolicy base n = some a) :
    ¬ AddrsOk s base n ∧ a = max base 4096 :=
  ⟨fun ok => absurd h (by simp [firstBadAddr_eq_none.2 ok]), (firstBadAddr_some.1 h).2.2.2⟩

/-! ### V registers -/

/-- Reading a V register after writing one (R14). -/
@[simp] theorem readV_writeV (s : State) (x r : Nibble) (b : Byte) :
    readV (writeV s x b) r = if r = x then b else readV s r := by
  simp only [readV, writeV, Vector.getElem_set]
  by_cases h : r = x
  · subst h; simp
  · have : x.toNat ≠ r.toNat := fun e => h (BitVec.eq_of_toNat_eq e.symm)
    simp [h, this]

theorem onlyV_refl (s : State) : OnlyV s s := rfl

theorem onlyV_writeV {s t : State} (x : Nibble) (b : Byte) (h : OnlyV s t) : OnlyV s (writeV t x b) := by
  unfold OnlyV at *; rw [h]; rfl

/-- Registers that a step writes through `v` only read the same where `v` does. -/
theorem readV_congr {s t : State} (h : t.v = s.v) (x : Nibble) : readV t x = readV s x := by simp [readV, h]

theorem writeRegs_only (s : State) (k : Nat) (l : List Byte) : OnlyV s (writeRegs s k l) := by
  induction l generalizing s k with
  | nil => rfl
  | cons b rest ih =>
    have := ih (writeV s (BitVec.ofNat 4 k) b) (k + 1)
    unfold OnlyV at *; rw [writeRegs, this]; rfl

/-- A run of register writes that ends by V[15] puts byte j into V[k + j] and leaves the others (R85). -/
theorem readV_writeRegs (s : State) (k : Nat) (l : List Byte) (hk : k + l.length ≤ 16) (r : Nibble) :
    readV (writeRegs s k l) r =
      if h : k ≤ r.toNat ∧ r.toNat - k < l.length then l[r.toNat - k]'h.2 else readV s r := by
  induction l generalizing s k with
  | nil => simp [writeRegs]
  | cons b rest ih =>
    simp only [List.length_cons] at hk
    rw [writeRegs, ih _ _ (by omega)]
    simp only [readV_writeV, List.length_cons]
    by_cases hr : r = BitVec.ofNat 4 k
    · have hrk : r.toNat = k := by subst hr; simp; omega
      rw [dif_neg (by omega), if_pos hr, dif_pos ⟨by omega, by omega⟩]
      simp [hrk]
    · have hrk : r.toNat ≠ k := by
        intro e; apply hr; apply BitVec.eq_of_toNat_eq; simp [e]
        have := r.isLt; omega
      by_cases hlt : k ≤ r.toNat
      · obtain ⟨d, hd⟩ : ∃ d, r.toNat = k + 1 + d := ⟨r.toNat - k - 1, by omega⟩
        have h1 : r.toNat - (k + 1) = d := by omega
        have h2 : r.toNat - k = d + 1 := by omega
        simp only [h1, h2]
        by_cases hdl : d < rest.length
        · rw [dif_pos ⟨by omega, hdl⟩, dif_pos ⟨by omega, by omega⟩]; simp
        · rw [dif_neg (by omega), dif_neg (by omega), if_neg hr]
      · rw [dif_neg (by omega), dif_neg (by omega), if_neg hr]

@[simp] theorem length_readRegs (s : State) (n : Nat) : (readRegs s n).length = n := by simp [readRegs]

@[simp] theorem getElem_readRegs (s : State) (n k : Nat) (h : k < (readRegs s n).length) :
    (readRegs s n)[k] = readV s (BitVec.ofNat 4 k) := by simp [readRegs]

/-! ### The stack (R54, R55) -/

theorem push_eq (s : State) (w : Word) :
    push s w = if s.stack.length = s.params.stackCapacity then none else some { s with stack := s.stack ++ [w] } := rfl

theorem pop_nil {s : State} (h : s.stack = []) : pop s = none := by simp [pop, h]

theorem pop_concat {s : State} {l : List Word} {w : Word} (h : s.stack = l ++ [w]) :
    pop s = some (w, { s with stack := l }) := by simp [pop, h]

/-- Every stack is empty or ends in its most recently pushed value. -/
theorem stack_cases (s : State) : s.stack = [] ∨ ∃ l w, s.stack = l ++ [w] := by
  rcases List.eq_nil_or_concat s.stack with h | ⟨l, w, h⟩
  · exact Or.inl h
  · exact Or.inr ⟨l, w, by simpa using h⟩

/-! ### Raising a fault (R97) -/

/-- raise answers a next state in which only the latch is new. -/
theorem raise_eq (op : Word) (c : FaultCode) (f : FaultInfo) (s : State) :
    raise op c f s =
      .next { s with fault := some { code := c, pc := s.pc - 2, opcode := some op, info := f } } := rfl

/-! ### The key read (R91) -/

/-- Reading the key named by a register takes at most one draw and changes nothing else. -/
theorem keyOf_only (s : State) (b : Byte) :
    (keyOf s b).2 = s ∨ (keyOf s b).2 = { s with keyDraws := s.keyDraws + 1 } := by
  unfold keyOf
  split
  · exact Or.inl rfl
  · split
    · exact Or.inr rfl
    · exact Or.inl rfl
    · exact Or.inl rfl

/-- A register value that names a key reads that key and takes no draw (R91). -/
theorem keyOf_inRange {s : State} {b : Byte} (h : b.toNat < 16) : keyOf s b = (s.keys[b.toNat], s) := by
  have hle : b ≤ 15#8 := by rw [BitVec.le_def]; simp; omega
  simp [keyOf, hle, isPressed, Nat.mod_eq_of_lt h]

/-- A register value above 15 is read by `KEY_RANGE_POLICY` (R91). -/
theorem keyOf_outOfRange {s : State} {b : Byte} (h : 15 < b.toNat) :
    keyOf s b = match s.params.keyRangePolicy with
      | .draw => (Config.keydraw s.keyDraws, { s with keyDraws := s.keyDraws + 1 })
      | .notPressed => (false, s)
      | .lowNibble => (s.keys[b.toNat % 16]'(Nat.mod_lt _ (by decide)), s) := by
  have hle : ¬ b ≤ 15#8 := by rw [BitVec.le_def]; simp; omega
  cases hp : s.params.keyRangePolicy <;> simp [keyOf, hle, hp, isPressed, drawKey]

/-! ### Flags (R66, R67) -/

theorem flagAndResult_only (f g : Byte → Byte → Byte) (x y : Nibble) (s : State) : OnlyV s (flagAndResult f g x y s) := by
  unfold flagAndResult; split <;> rfl

theorem sumThenFlag_only (x y : Nibble) (s : State) : OnlyV s (sumThenFlag x y s) := by
  unfold sumThenFlag; dsimp only; split <;> rfl

/-- The registers after the two writes of 8xy5, 8xy6, 8xy7 and 8xyE, in both orders (R67). -/
theorem readV_flagAndResult (f g : Byte → Byte → Byte) (x y r : Nibble) (s : State) :
    readV (flagAndResult f g x y s) r =
      let a := readV s x
      let b := readV s y
      match s.params.vfAliasOrder with
      | .asWritten =>
        if r = x then g (if x = vf then f a b else a) (if y = vf then f a b else b)
        else if r = vf then f a b else readV s r
      | .flagLast => if r = vf then f a b else if r = x then g a b else readV s r := by
  unfold flagAndResult
  cases h : s.params.vfAliasOrder <;> simp

/-- The registers after the two writes of 8xy4, in both orders (R74). -/
theorem readV_sumThenFlag (x y r : Nibble) (s : State) :
    readV (sumThenFlag x y s) r =
      let a := readV s x
      let b := readV s y
      match s.params.vfAliasOrder with
      | .asWritten => if r = x then a + b else if r = vf then carryFlag a b else readV s r
      | .flagLast => if r = vf then carryFlag a b else if r = x then a + b else readV s r := by
  unfold sumThenFlag
  cases h : s.params.vfAliasOrder <;> simp

end Sys2Proof.Machine
end

