-- ==== Sys2Proof/Laws/Display.lean ====
section
/-! SUPPORT. The display: which cell a coordinate reaches, which pixels a sprite toggles, and what toggling a list of
distinct cells does (R107, R108). -/

namespace Sys2Proof.Machine

/-- On every coordinate that `coord` is asked for, the single correction and the remainder agree (R107, D9). -/
theorem coord_eq_emod (v : Int) (size : Nat) (h : 0 < size) : (coord v size : Int) = v % size := by
  unfold coord inContract wrapOnce
  have h0 : (size : Int) ≠ 0 := by omega
  have hp : (0 : Int) < size := by omega
  have hn := Int.emod_nonneg v h0
  split <;> rename_i hc
  · have hc := of_decide_eq_true hc
    split
    · rw [Int.toNat_of_nonneg (by omega), Int.emod_eq_sub_self_emod, Int.emod_eq_of_lt] <;> omega
    · split
      · rw [Int.toNat_of_nonneg (by omega), Int.emod_eq_add_self_emod, Int.emod_eq_of_lt] <;> omega
      · rw [Int.toNat_of_nonneg (by omega), Int.emod_eq_of_lt] <;> omega
  · rw [Int.toNat_of_nonneg hn]

/-- The cell a pixel of Dxyn reaches, whose coordinates are never negative (R107). -/
theorem pixelCell_nat (x y : Nat) : (pixelCell x y).val = y % 32 * 64 + x % 64 := by
  have hx := coord_eq_emod x cols (by decide)
  have hy := coord_eq_emod y rows (by decide)
  unfold pixelCell cols rows at *
  dsimp only
  omega

/-- Toggling one pixel: that cell is inverted, no other changes, and the answer is the old cell (R107). -/
theorem setPixel_cell (d : Vector Bool 2048) (x y : Int) (c : Nat) (hc : c < 2048) :
    (setPixel d x y).1[c] = if c = (pixelCell x y).val then !d[c] else d[c] := by
  simp only [setPixel, Fin.getElem_fin, Vector.getElem_set]
  by_cases h : c = (pixelCell x y).val
  · subst h; simp
  · rw [if_neg (fun e => h e.symm), if_neg h]

theorem setPixel_collided (d : Vector Bool 2048) (x y : Int) :
    (setPixel d x y).2 = d[(pixelCell x y).val]'(pixelCell x y).isLt := rfl

/-- Toggling a list of pixels that reach distinct cells: exactly their cells are inverted (R90). -/
theorem drawPixels_cell (d : Vector Bool 2048) (l : List (Int × Int))
    (hl : (l.map fun p => (pixelCell p.1 p.2).val).Nodup) (c : Nat) (hc : c < 2048) :
    (drawPixels d l).1[c] = if c ∈ l.map (fun p => (pixelCell p.1 p.2).val) then !d[c] else d[c] := by
  induction l generalizing d with
  | nil => simp [drawPixels]
  | cons p rest ih =>
    obtain ⟨x, y⟩ := p
    simp only [List.map_cons, List.nodup_cons] at hl
    simp only [drawPixels]
    rw [ih _ hl.2, setPixel_cell]
    simp only [List.map_cons, List.mem_cons]
    by_cases h : c = (pixelCell x y).val
    · subst h; simp [hl.1]
    · simp only [h, false_or, if_false]

/-- The collision of a list of pixels that reach distinct cells: some of their cells was on (R90). -/
theorem drawPixels_collided (d : Vector Bool 2048) (l : List (Int × Int))
    (hl : (l.map fun p => (pixelCell p.1 p.2).val).Nodup) :
    (drawPixels d l).2 = true ↔ ∃ p ∈ l, d[(pixelCell p.1 p.2).val]'(pixelCell p.1 p.2).isLt = true := by
  induction l generalizing d with
  | nil => simp [drawPixels]
  | cons p rest ih =>
    obtain ⟨x, y⟩ := p
    simp only [List.map_cons, List.nodup_cons] at hl
    simp only [drawPixels, Bool.or_eq_true, setPixel_collided, List.mem_cons, exists_eq_or_imp]
    rw [ih _ hl.2]
    apply or_congr_right
    apply exists_congr; intro q
    apply and_congr_right; intro hq
    rw [setPixel_cell]
    rw [if_neg]
    intro e
    exact hl.1 (List.mem_map.2 ⟨q, hq, e⟩)

/-- The pixels of a sprite: column c of row r for each set bit 7 - c of byte r (R90, R108). -/
theorem mem_spritePixels (x y : Int) (l : List Byte) (p : Int × Int) :
    p ∈ spritePixels x y l ↔
      ∃ r c : Nat, ∃ h : r < l.length, c < 8 ∧ l[r].getLsbD (7 - c) = true ∧ p = (x + c, y + r) := by
  induction l generalizing y with
  | nil => simp [spritePixels]
  | cons b rest ih =>
    simp only [spritePixels, List.mem_append, ih, rowPixels, List.mem_map, List.mem_filter, List.mem_range]
    constructor
    · rintro (⟨c, ⟨hc, hb⟩, rfl⟩ | ⟨r, c, hr, hc, hb, rfl⟩)
      · exact ⟨0, c, by simp, hc, hb, by simp⟩
      · refine ⟨r + 1, c, by simpa using hr, hc, by simpa using hb, ?_⟩
        push_cast; rw [show y + 1 + (r : Int) = y + ((r : Int) + 1) by omega]
    · rintro ⟨r, c, hr, hc, hb, rfl⟩
      cases r with
      | zero => exact Or.inl ⟨c, ⟨hc, by simpa using hb⟩, by simp⟩
      | succ r =>
        refine Or.inr ⟨r, c, by simpa using hr, hc, by simpa using hb, ?_⟩
        push_cast; rw [show y + 1 + (r : Int) = y + ((r : Int) + 1) by omega]

/-- The cells of Dxyn's pixels are the cells its sprite hits (R90, R107). -/
theorem mem_drwPixels_cell (s : State) (x y n : Nibble) (c : Nat) :
    c ∈ (drwPixels x y n s).map (fun p => (pixelCell p.1 p.2).val) ↔ SpriteHits s x y n c := by
  simp only [List.mem_map, drwPixels, mem_spritePixels, SpriteHits]
  constructor
  · rintro ⟨p, ⟨r, k, hr, hk, hb, rfl⟩, rfl⟩
    rw [length_readBytes] at hr
    rw [getElem_readBytes] at hb
    have := pixelCell_nat ((readV s x).toNat + k) ((readV s y).toNat + r)
    push_cast at this
    exact ⟨r, k, hr, hk, hb, this⟩
  · rintro ⟨r, k, hr, hk, hb, rfl⟩
    have := pixelCell_nat ((readV s x).toNat + k) ((readV s y).toNat + r)
    push_cast at this
    exact ⟨_, ⟨r, k, by simpa using hr, hk, by rw [getElem_readBytes]; exact hb, rfl⟩, this⟩

/-- The pixels of a sprite of fewer than 16 rows reach distinct cells: none is toggled twice (R90). -/
theorem nodup_spritePixels (x y j : Nat) (l : List Byte) (hl : j + l.length < 16) :
    ((spritePixels x ((y : Int) + j) l).map fun p => (pixelCell p.1 p.2).val).Nodup := by
  induction l generalizing j with
  | nil => simp [spritePixels]
  | cons b rest ih =>
    simp only [List.length_cons] at hl
    have hnext : (y : Int) + j + 1 = y + (j + 1 : Nat) := by push_cast; omega
    simp only [spritePixels, List.map_append]
    rw [List.nodup_append, hnext]
    refine ⟨?_, ih (j + 1) (by omega), ?_⟩
    · unfold rowPixels
      rw [List.map_map]
      refine List.Nodup.map_on ?_ (List.Nodup.filter _ List.nodup_range)
      intro a ha c hc h
      simp only [List.mem_filter, List.mem_range] at ha hc
      have h1 := pixelCell_nat (x + a) (y + j)
      have h2 := pixelCell_nat (x + c) (y + j)
      simp only [Function.comp] at h
      push_cast at h1 h2
      rw [h1, h2] at h
      omega
    · intro a ha b' hb' e
      subst e
      simp only [List.mem_map, rowPixels, List.mem_filter, List.mem_range] at ha
      obtain ⟨p, ⟨k, ⟨hk, -⟩, rfl⟩, rfl⟩ := ha
      simp only [List.mem_map, mem_spritePixels] at hb'
      obtain ⟨q, ⟨r, m, hr, hm, -, rfl⟩, e⟩ := hb'
      have h1 := pixelCell_nat (x + k) (y + j)
      have h2 := pixelCell_nat (x + m) (y + (j + 1) + r)
      push_cast at h1 h2 e
      rw [h1, h2] at e
      omega

theorem nodup_drwPixels (s : State) (x y n : Nibble) :
    ((drwPixels x y n s).map fun p => (pixelCell p.1 p.2).val).Nodup := by
  have := nodup_spritePixels (readV s x).toNat (readV s y).toNat 0 (readBytes s (baseI s) n.toNat)
    (by have := n.isLt; simp; omega)
  simpa [drwPixels] using this

/-- A pixel at a sprite's own coordinates is out of contract exactly when it is too far right or too far down (R107). -/
theorem outOfContract_nat (x y : Nat) : outOfContract (x, y) = true ↔ ¬ (x < 128 ∧ y < 64) := by
  simp [outOfContract, inContract, cols, rows]
  omega

/-- No coordinate of Dxyn raises (R90). -/
theorem firstBadPixel_of_coordsOk {s : State} {x y n : Nibble} (h : CoordsOk s x y n) :
    firstBadPixel s.params.coordPolicy (drwPixels x y n s) = none := by
  unfold firstBadPixel
  rcases h with h | h
  · rw [h]
  · split
    · rw [List.find?_eq_none]
      intro p hp
      simp only [drwPixels, mem_spritePixels] at hp
      obtain ⟨r, c, hr, hc, hb, rfl⟩ := hp
      rw [length_readBytes] at hr
      rw [getElem_readBytes] at hb
      have hin := h r c hr hc hb
      have := outOfContract_nat ((readV s x).toNat + c) ((readV s y).toNat + r)
      push_cast at this
      rw [this]; exact not_not.2 hin
    · rfl

/-- A coordinate that raises is that of a set bit of the sprite that lands out of contract (R90, R107). -/
theorem firstBadPixel_some {s : State} {x y n : Nibble} {px py : Int}
    (h : firstBadPixel s.params.coordPolicy (drwPixels x y n s) = some (px, py)) :
    s.params.coordPolicy = .fault ∧ ∃ r c, r < n.toNat ∧ c < 8 ∧ spriteBit s r c = true ∧ ¬ BitInContract s x y r c ∧
      px = ((readV s x).toNat + c : Nat) ∧ py = ((readV s y).toNat + r : Nat) := by
  unfold firstBadPixel at h
  split at h
  · rename_i hp
    have hb := List.find?_some h
    have hm := List.mem_of_find?_eq_some h
    simp only [drwPixels, mem_spritePixels] at hm
    obtain ⟨r, c, hr, hc, hs, he⟩ := hm
    cases he
    rw [length_readBytes] at hr
    rw [getElem_readBytes] at hs
    have := outOfContract_nat ((readV s x).toNat + c) ((readV s y).toNat + r)
    push_cast at this
    rw [this] at hb
    exact ⟨hp, r, c, hr, hc, hs, hb, by push_cast; rfl, by push_cast; rfl⟩
  · cases h

/-- The first pixel that raises: none before it in the list does (R90). -/
theorem find_first_pixel {pre post : List (Int × Int)} {p : Int × Int} (hpre : ∀ q ∈ pre, outOfContract q = false)
    (hp : outOfContract p = true) : (pre ++ p :: post).find? outOfContract = some p := by
  rw [List.find?_append, List.find?_eq_none.2 (by intro q hq; simp [hpre q hq])]
  simp [hp]

end Sys2Proof.Machine
end

