-- ==== Sys2Proof/Laws/Exec.lean ====
section
/-! SUPPORT. Executing an instruction does not read or write the position of the tick: `exec` commutes with a change of
`batch` (R103); and everything an instruction can do to each field of the state, said once. -/

namespace Sys2Proof.Machine

/-- An outcome with its next state, if it has one, changed. -/
def onNext (f : State → State) : Outcome → Outcome
  | .next t => .next (f t)
  | .fault r => .fault r
  | .refused r => .refused r

theorem push_batch (s : State) (b : Option Nat) (w : Word) :
    push { s with batch := b } w = (push s w).map fun t => { t with batch := b } := by
  simp only [push_eq]; by_cases h : s.stack.length = s.params.stackCapacity <;> simp [h]

theorem pop_batch (s : State) (b : Option Nat) :
    pop { s with batch := b } = (pop s).map fun r => (r.1, { r.2 with batch := b }) := by
  simp only [pop]; cases s.stack.getLast? <;> rfl

theorem keyOf_batch (s : State) (b : Option Nat) (v : Byte) :
    keyOf { s with batch := b } v = ((keyOf s v).1, { (keyOf s v).2 with batch := b }) := by
  by_cases h : v ≤ 15
  · simp only [keyOf, if_pos h]; rfl
  · simp only [keyOf, if_neg h]; cases s.params.keyRangePolicy <;> rfl

theorem storeBytes_batch (s : State) (b : Option Nat) (a : Nat) (l : List Byte) :
    storeBytes { s with batch := b } a l = { storeBytes s a l with batch := b } := by
  induction l generalizing s a with
  | nil => rfl
  | cons v rest ih => exact ih (memWrite s a v) (a + 1)

theorem writeRegs_batch (s : State) (b : Option Nat) (k : Nat) (l : List Byte) :
    writeRegs { s with batch := b } k l = { writeRegs s k l with batch := b } := by
  induction l generalizing s k with
  | nil => rfl
  | cons v rest ih => exact ih (writeV s _ v) (k + 1)

theorem flagAndResult_batch (f g : Byte → Byte → Byte) (x y : Nibble) (s : State) (b : Option Nat) :
    flagAndResult f g x y { s with batch := b } = { flagAndResult f g x y s with batch := b } := by
  unfold flagAndResult; cases s.params.vfAliasOrder <;> rfl

theorem sumThenFlag_batch (x y : Nibble) (s : State) (b : Option Nat) :
    sumThenFlag x y { s with batch := b } = { sumThenFlag x y s with batch := b } := by
  unfold sumThenFlag; cases s.params.vfAliasOrder <;> rfl

/-- An instruction does to a state what it does to the same state elsewhere in a tick. -/
theorem exec_batch (i : Instr) (s : State) (b : Option Nat) :
    exec i { s with batch := b } = onNext (fun t => { t with batch := b }) (exec i s) := by
  cases i
  case ret =>
    simp only [exec, execRet, pop_batch]
    cases pop s <;> rfl
  case call nnn =>
    simp only [exec, execCall, push_batch]
    cases push s s.pc <;> rfl
  case addReg x y => simp only [exec, execAddReg, sumThenFlag_batch]; rfl
  case sub x y => simp only [exec, execSub, flagAndResult_batch]; rfl
  case shr x y => simp only [exec, execShr, flagAndResult_batch]; rfl
  case subn x y => simp only [exec, execSubn, flagAndResult_batch]; rfl
  case shl x y => simp only [exec, execShl, flagAndResult_batch]; rfl
  case skp x => simp only [exec, execSkp, keyOf_batch]; rfl
  case sknp x => simp only [exec, execSknp, keyOf_batch]; rfl
  case ldB x =>
    have hb : baseI { s with batch := b } = baseI s := rfl
    simp only [exec, execLdB, storeBytes_batch, hb]
    cases firstBadAddr s.params.addrPolicy (baseI s) 3 <;> rfl
  case stRegs x =>
    have hb : baseI { s with batch := b } = baseI s := rfl
    simp only [exec, execStRegs, storeBytes_batch, hb]
    cases firstBadAddr s.params.addrPolicy (baseI s) (regCount x) <;> rfl
  case ldRegs x =>
    have hb : baseI { s with batch := b } = baseI s := rfl
    simp only [exec, execLdRegs, writeRegs_batch, hb]
    cases firstBadAddr s.params.addrPolicy (baseI s) (regCount x) <;> rfl
  case drw x y n =>
    have hb : baseI { s with batch := b } = baseI s := rfl
    have hp : drwPixels x y n { s with batch := b } = drwPixels x y n s := rfl
    simp only [exec, execDrw, hb, hp]
    cases firstBadAddr s.params.addrPolicy (baseI s) n.toNat
    · dsimp only; cases firstBadPixel s.params.coordPolicy (drwPixels x y n s) <;> rfl
    · rfl
  all_goals rfl

/-- When an instruction raises `code` with `info` from `s` (R54, R55, R90, R31, R39, R96). -/
inductive Raises (s : State) : Instr → FaultCode → FaultInfo → Prop
  | underflow (h : s.stack = []) : Raises s .ret .stackUnderflow .none
  | overflow (nnn : Addr12) (h : s.stack.length = s.params.stackCapacity) : Raises s (.call nnn) .stackOverflow .none
  | pixel (x y n : Nibble) (r c : Nat) (hp : s.params.coordPolicy = .fault) (hr : r < n.toNat) (hc : c < 8)
      (hb : spriteBit s r c = true) (h : ¬ BitInContract s x y r c) :
      Raises s (.drw x y n) .coordinateOutOfContract
        (.coords ((readV s x).toNat + c : Nat) ((readV s y).toNat + r : Nat))
  | address (i : Instr) (count : Nat) (h : ¬ AddrsOk s (baseI s) count)
      (hi : (∃ x, i = .ldB x ∧ count = 3) ∨ (∃ x, (i = .stRegs x ∨ i = .ldRegs x) ∧ count = x.toNat + 1) ∨
        ∃ x y n, i = .drw x y n ∧ count = n.toNat) :
      Raises s i .addressOutOfRange (.address (max (baseI s) 4096))

/-- What an instruction that raises nothing can do to each field, by the shared operation that does it. -/
structure Effect (i : Instr) (s t : State) : Prop where
  fault   : t.fault = s.fault
  keys    : t.keys = s.keys
  tone    : t.tone = s.tone
  params  : t.params = s.params
  batch   : t.batch = s.batch
  inputs  : t.inputs = s.inputs
  outputs : t.outputs = s.outputs
  mem     : t.mem = s.mem ∨ ((∃ x, i = .ldB x ∨ i = .stRegs x) ∧ ∃ a l, t.mem = (storeBytes s a l).mem)
  v       : t.v = s.v ∨
    (∃ x kk b, (i = .ldImm x kk ∨ i = .addImm x kk ∨ i = .rnd x kk) ∧ t.v = (writeV s x b).v) ∨
    (∃ x y b, (i = .ldReg x y ∨ i = .or x y ∨ i = .and x y ∨ i = .xor x y) ∧ t.v = (writeV s x b).v) ∨
    (∃ x b, i = .ldDtRead x ∧ t.v = (writeV s x b).v) ∨
    (∃ x y, i = .addReg x y ∧ t.v = (sumThenFlag x y s).v) ∨
    (∃ x y f g, (i = .sub x y ∨ i = .shr x y ∨ i = .subn x y ∨ i = .shl x y) ∧ t.v = (flagAndResult f g x y s).v) ∨
    (∃ x y n b, i = .drw x y n ∧ t.v = (writeV s vf b).v) ∨
    ∃ x, i = .ldRegs x ∧ t.v = (writeRegs s 0 (readBytes s (baseI s) (regCount x))).v
  index   : t.i = s.i ∨ (∃ nnn, i = .ldI nnn) ∨ (∃ x, i = .addI x) ∨ ∃ x, i = .ldF x
  stack   : t.stack = s.stack ∨
    ((∃ nnn, i = .call nnn) ∧ s.stack.length ≠ s.params.stackCapacity ∧ t.stack = s.stack ++ [s.pc]) ∨
    (i = .ret ∧ ∃ w, s.stack = t.stack ++ [w])
  dt      : t.dt = s.dt ∨ ∃ x, i = .ldDtWrite x
  st      : t.st = s.st ∨ ∃ x, i = .ldSt x
  disp    : t.disp = s.disp ∨ i = .cls ∨ ∃ x y n, i = .drw x y n
  wait    : t.paused = s.paused ∧ t.waitReg = s.waitReg ∨ ∃ x, i = .ldK x ∧ t.paused = true ∧ t.waitReg = some x
  pc      : t.pc = s.pc ∨ (∃ nnn, i = .jp nnn ∨ i = .call nnn ∨ i = .jpV0 nnn) ∨ i = .ret ∨
    (∃ x kk, i = .seImm x kk ∨ i = .sneImm x kk) ∨ (∃ x y, i = .seReg x y ∨ i = .sneReg x y) ∨
    ∃ x, i = .skp x ∨ i = .sknp x
  rand    : t.randDraws = s.randDraws ∨ ∃ x kk, i = .rnd x kk
  key     : t.keyDraws = s.keyDraws ∨ ∃ x, i = .skp x ∨ i = .sknp x

/-- Everything executing an instruction can do: it raises, and only the latch is new, or it has an `Effect`. -/
theorem exec_cases {i : Instr} {s t : State} (h : exec i s = .next t) :
    (∃ code info, Raises s i code info ∧ t = raised s code (encode i) info) ∨ Effect i s t := by
  cases i <;>
    simp only [exec, execRet, execCall, execDrw, execLdB, execStRegs, execLdRegs, execCls, execSys, execJp, execJpV0,
      execSeImm, execSneImm, execSeReg, execSneReg, execLdImm, execAddImm, execLdReg, execOr, execAnd, execXor, execAddReg,
      execSub, execShr, execSubn, execShl, execRnd, execLdI, execAddI, execLdF, execSkp, execSknp, execLdDtRead, execLdK,
      execLdDtWrite, execLdSt] at h
  case ret =>
    rcases stack_cases s with e | ⟨l, w, e⟩
    · rw [pop_nil e] at h; cases h; exact Or.inl ⟨_, _, .underflow e, rfl⟩
    · rw [pop_concat e] at h; cases h; right; constructor <;> simp [e]
  case call nnn =>
    rw [push_eq] at h
    by_cases hc : s.stack.length = s.params.stackCapacity
    · rw [if_pos hc] at h; cases h; exact Or.inl ⟨_, _, .overflow nnn hc, rfl⟩
    · rw [if_neg hc] at h; cases h; right; constructor <;> simp [hc]
  case addReg x y => cases h; right; rw [sumThenFlag_only]; constructor <;> simp
  case sub x y => cases h; right; rw [flagAndResult_only]; constructor <;> simp; exact Or.inr ⟨_, _, rfl⟩
  case subn x y => cases h; right; rw [flagAndResult_only]; constructor <;> simp; exact Or.inr ⟨_, _, rfl⟩
  case shr x y => cases h; right; rw [flagAndResult_only]; constructor <;> simp; exact Or.inr ⟨_, _, rfl⟩
  case shl x y => cases h; right; rw [flagAndResult_only]; constructor <;> simp; exact Or.inr ⟨_, _, rfl⟩
  case skp x => cases h; right; rcases keyOf_only s (readV s x) with e | e <;> constructor <;> simp [skipIf, e]
  case sknp x => cases h; right; rcases keyOf_only s (readV s x) with e | e <;> constructor <;> simp [skipIf, e]
  case ldB x =>
    split at h <;> cases h
    · rename_i a e; obtain ⟨hn, rfl⟩ := firstBadAddr_eq_some e
      exact Or.inl ⟨_, _, .address _ _ hn (Or.inl ⟨x, rfl, rfl⟩), rfl⟩
    · right; rw [storeBytes_only]; constructor <;> simp; exact Or.inr ⟨_, _, rfl⟩
  case stRegs x =>
    split at h <;> cases h
    · rename_i a e; obtain ⟨hn, rfl⟩ := firstBadAddr_eq_some e
      exact Or.inl ⟨_, _, .address _ _ hn (Or.inr (Or.inl ⟨x, Or.inl rfl, rfl⟩)), rfl⟩
    · right; rw [storeBytes_only]; constructor <;> simp; exact Or.inr ⟨_, _, rfl⟩
  case ldRegs x =>
    split at h <;> cases h
    · rename_i a e; obtain ⟨hn, rfl⟩ := firstBadAddr_eq_some e
      exact Or.inl ⟨_, _, .address _ _ hn (Or.inr (Or.inl ⟨x, Or.inr rfl, rfl⟩)), rfl⟩
    · right; rw [writeRegs_only]; constructor <;> simp
  case drw x y n =>
    split at h
    · cases h; rename_i a e; obtain ⟨hn, rfl⟩ := firstBadAddr_eq_some e
      exact Or.inl ⟨_, _, .address _ _ hn (Or.inr (Or.inr ⟨x, y, n, rfl, rfl⟩)), rfl⟩
    · split at h <;> cases h
      · rename_i e
        obtain ⟨hp, r, c, hr, hc, hb, ho, rfl, rfl⟩ := firstBadPixel_some e
        exact Or.inl ⟨_, _, .pixel x y n r c hp hr hc hb ho, rfl⟩
      · right; constructor <;> simp; exact Or.inr ⟨_, rfl⟩
  all_goals (cases h; right; constructor <;> simp [skipIf])
  all_goals exact Or.inr ⟨_, rfl⟩

end Sys2Proof.Machine
end

