-- ==== Sys2Proof/Laws/PerInstr.lean ====
section
/-! SUPPORT. Per instruction: the encoder's word has the fixed bits of its row of spec/opcode_table.json. -/

namespace Sys2Proof.Laws.RowBits

/-- The "match" column of the opcode table. -/
def rowMatch : Instr → Nat
  | .cls => 0x00E0
  | .ret => 0x00EE
  | .sys _ => 0x0000
  | .jp _ => 0x1000
  | .call _ => 0x2000
  | .seImm _ _ => 0x3000
  | .sneImm _ _ => 0x4000
  | .seReg _ _ => 0x5000
  | .ldImm _ _ => 0x6000
  | .addImm _ _ => 0x7000
  | .ldReg _ _ => 0x8000
  | .or _ _ => 0x8001
  | .and _ _ => 0x8002
  | .xor _ _ => 0x8003
  | .addReg _ _ => 0x8004
  | .sub _ _ => 0x8005
  | .shr _ _ => 0x8006
  | .subn _ _ => 0x8007
  | .shl _ _ => 0x800E
  | .sneReg _ _ => 0x9000
  | .ldI _ => 0xA000
  | .jpV0 _ => 0xB000
  | .rnd _ _ => 0xC000
  | .drw _ _ _ => 0xD000
  | .skp _ => 0xE09E
  | .sknp _ => 0xE0A1
  | .ldDtRead _ => 0xF007
  | .ldK _ => 0xF00A
  | .ldDtWrite _ => 0xF015
  | .ldSt _ => 0xF018
  | .addI _ => 0xF01E
  | .ldF _ => 0xF029
  | .ldB _ => 0xF033
  | .stRegs _ => 0xF055
  | .ldRegs _ => 0xF065

/-- The bits of a word that the row of an instruction fixes, as the "mask" column selects them: all 16 bits, the top
nibble alone, the top nibble and n, or the top nibble and kk. -/
def fixedBits (i : Instr) (w : Nat) : Nat :=
  match i with
  | .cls | .ret => w
  | .sys _ | .jp _ | .call _ | .ldI _ | .jpV0 _ => w / 4096 * 4096
  | .seImm _ _ | .sneImm _ _ | .ldImm _ _ | .addImm _ _ | .rnd _ _ | .drw _ _ _ => w / 4096 * 4096
  | .seReg _ _ | .ldReg _ _ | .or _ _ | .and _ _ | .xor _ _ | .addReg _ _ | .sub _ _ | .shr _ _ | .subn _ _
  | .shl _ _ | .sneReg _ _ => w / 4096 * 4096 + w % 16
  | .skp _ | .sknp _ | .ldDtRead _ | .ldK _ | .ldDtWrite _ | .ldSt _ | .addI _ | .ldF _ | .ldB _ | .stRegs _
  | .ldRegs _ => w / 4096 * 4096 + w % 256

/-- The encoding of an instruction has exactly the fixed bits of its table row. -/
def Statement (i : Instr) : Prop := fixedBits i (encode i).toNat = rowMatch i

theorem statement_wordNNN {i : Instr} {t : Nibble} {nnn : Addr12} (he : encode i = wordNNN t nnn)
    (hf : fixedBits i (encode i).toNat = (encode i).toNat / 4096 * 4096) (hm : rowMatch i = t.toNat * 4096) :
    Statement i := by
  unfold Statement; rw [hf, he, hm, toNat_wordNNN]; omega

theorem statement_wordXKK_t {i : Instr} {t x : Nibble} {kk : Byte} (he : encode i = wordXKK t x kk)
    (hf : fixedBits i (encode i).toNat = (encode i).toNat / 4096 * 4096) (hm : rowMatch i = t.toNat * 4096) :
    Statement i := by
  unfold Statement; rw [hf, he, hm, toNat_wordXKK]; omega

theorem statement_wordXKK {i : Instr} {t x : Nibble} {kk : Byte} (he : encode i = wordXKK t x kk)
    (hf : fixedBits i (encode i).toNat = (encode i).toNat / 4096 * 4096 + (encode i).toNat % 256)
    (hm : rowMatch i = t.toNat * 4096 + kk.toNat) : Statement i := by
  unfold Statement; rw [hf, he, hm, toNat_wordXKK]; omega

theorem statement_wordXYN_t {i : Instr} {t x y n : Nibble} (he : encode i = wordXYN t x y n)
    (hf : fixedBits i (encode i).toNat = (encode i).toNat / 4096 * 4096) (hm : rowMatch i = t.toNat * 4096) :
    Statement i := by
  unfold Statement; rw [hf, he, hm, toNat_wordXYN]; omega

theorem statement_wordXYN {i : Instr} {t x y n : Nibble} (he : encode i = wordXYN t x y n)
    (hf : fixedBits i (encode i).toNat = (encode i).toNat / 4096 * 4096 + (encode i).toNat % 16)
    (hm : rowMatch i = t.toNat * 4096 + n.toNat) : Statement i := by
  unfold Statement; rw [hf, he, hm, toNat_wordXYN]; omega

theorem cls : Statement .cls := rfl
theorem ret : Statement .ret := rfl
theorem sys (nnn : Addr12) : Statement (.sys nnn) := statement_wordNNN rfl rfl rfl
theorem jp (nnn : Addr12) : Statement (.jp nnn) := statement_wordNNN rfl rfl rfl
theorem call (nnn : Addr12) : Statement (.call nnn) := statement_wordNNN rfl rfl rfl
theorem seImm (x : Nibble) (kk : Byte) : Statement (.seImm x kk) := statement_wordXKK_t rfl rfl rfl
theorem sneImm (x : Nibble) (kk : Byte) : Statement (.sneImm x kk) := statement_wordXKK_t rfl rfl rfl
theorem seReg (x y : Nibble) : Statement (.seReg x y) := statement_wordXYN rfl rfl rfl
theorem ldImm (x : Nibble) (kk : Byte) : Statement (.ldImm x kk) := statement_wordXKK_t rfl rfl rfl
theorem addImm (x : Nibble) (kk : Byte) : Statement (.addImm x kk) := statement_wordXKK_t rfl rfl rfl
theorem ldReg (x y : Nibble) : Statement (.ldReg x y) := statement_wordXYN rfl rfl rfl
theorem or (x y : Nibble) : Statement (.or x y) := statement_wordXYN rfl rfl rfl
theorem and (x y : Nibble) : Statement (.and x y) := statement_wordXYN rfl rfl rfl
theorem xor (x y : Nibble) : Statement (.xor x y) := statement_wordXYN rfl rfl rfl
theorem addReg (x y : Nibble) : Statement (.addReg x y) := statement_wordXYN rfl rfl rfl
theorem sub (x y : Nibble) : Statement (.sub x y) := statement_wordXYN rfl rfl rfl
theorem shr (x y : Nibble) : Statement (.shr x y) := statement_wordXYN rfl rfl rfl
theorem subn (x y : Nibble) : Statement (.subn x y) := statement_wordXYN rfl rfl rfl
theorem shl (x y : Nibble) : Statement (.shl x y) := statement_wordXYN rfl rfl rfl
theorem sneReg (x y : Nibble) : Statement (.sneReg x y) := statement_wordXYN rfl rfl rfl
theorem ldI (nnn : Addr12) : Statement (.ldI nnn) := statement_wordNNN rfl rfl rfl
theorem jpV0 (nnn : Addr12) : Statement (.jpV0 nnn) := statement_wordNNN rfl rfl rfl
theorem rnd (x : Nibble) (kk : Byte) : Statement (.rnd x kk) := statement_wordXKK_t rfl rfl rfl
theorem drw (x y n : Nibble) : Statement (.drw x y n) := statement_wordXYN_t rfl rfl rfl
theorem skp (x : Nibble) : Statement (.skp x) := statement_wordXKK rfl rfl rfl
theorem sknp (x : Nibble) : Statement (.sknp x) := statement_wordXKK rfl rfl rfl
theorem ldDtRead (x : Nibble) : Statement (.ldDtRead x) := statement_wordXKK rfl rfl rfl
theorem ldK (x : Nibble) : Statement (.ldK x) := statement_wordXKK rfl rfl rfl
theorem ldDtWrite (x : Nibble) : Statement (.ldDtWrite x) := statement_wordXKK rfl rfl rfl
theorem ldSt (x : Nibble) : Statement (.ldSt x) := statement_wordXKK rfl rfl rfl
theorem addI (x : Nibble) : Statement (.addI x) := statement_wordXKK rfl rfl rfl
theorem ldF (x : Nibble) : Statement (.ldF x) := statement_wordXKK rfl rfl rfl
theorem ldB (x : Nibble) : Statement (.ldB x) := statement_wordXKK rfl rfl rfl
theorem stRegs (x : Nibble) : Statement (.stRegs x) := statement_wordXKK rfl rfl rfl
theorem ldRegs (x : Nibble) : Statement (.ldRegs x) := statement_wordXKK rfl rfl rfl

end Sys2Proof.Laws.RowBits
end

