-- ==== Sys2Proof/Laws/Step.lean ====
section
/-! SUPPORT. What one step of the machine is, by the kind of state it starts from (R51, R103, R114). -/

namespace Sys2Proof.Machine

/-- A word that is no instruction is rejected under its own name (R49). -/
theorem decodeWord_error {w : Word} {e : DecodeError} (h : decodeWord w = .error e) : e = .undefinedWord w := by
  unfold decodeWord decodeFamily8 decodeFamilyE decodeFamilyF at h
  simp only at h
  repeat' split at h
  all_goals first | (cases h; done) | (cases h; rfl)

theorem decode_pair_ok {hi lo : Byte} {i : Instr} :
    decode [hi, lo] = .ok (i, []) ↔ decodeWord (wordOfBytes hi lo) = .ok i := by
  simp only [decode]; cases h : decodeWord (wordOfBytes hi lo) <;> simp

/-- Inside a tick the core takes its turn. -/
theorem step_inTick {s : State} {n : Nat} (h : s.batch = some n) : step s = tickTurn n s := by simp only [step, h]

/-- Between ticks the host takes its turn. -/
theorem step_between {s : State} (h : s.batch = none) : step s = hostTurn s := by simp only [step, h]

/-- A turn that executes (R103). -/
theorem step_runs {s : State} {n : Nat} (h : s.runs n) : step s = cpuStep { s with batch := some n } := by
  obtain ⟨hb, hp, hf⟩ := h
  rw [step_inTick hb, tickTurn, hf, hp]; rfl

/-- A step of the core that fetches an instruction (R51). -/
theorem cpuStep_instr {s : State} {i : Instr} (ha : AddrsOk s s.pc.toNat 2) (hd : decodeWord (fetchWord s) = .ok i) :
    cpuStep s = exec i (advance s) := by
  rw [cpuStep, firstBadAddr_eq_none.2 ha]; simp only [hd]

/-- A step of the core that fetches an undefined word (R49, R51). -/
theorem cpuStep_undefined {s : State} {e : DecodeError} (ha : AddrsOk s s.pc.toNat 2)
    (hd : decodeWord (fetchWord s) = .error e) : cpuStep s = execUndefined (fetchWord s) (advance s) := by
  rw [cpuStep, firstBadAddr_eq_none.2 ha]; simp only [hd]

/-- A step of the core whose fetch raises (R51). -/
theorem cpuStep_fetchFault {s : State} (ha : ¬ AddrsOk s s.pc.toNat 2) :
    cpuStep s = .next (latchFault .addressOutOfRange s.pc none (.address (max s.pc.toNat 4096)) s) := by
  rw [cpuStep, firstBadAddr_of_not_addrsOk ha]

/-- The host's next interaction, while its list has one (R114). -/
theorem hostTurn_cons {s : State} {e : HostEvent} {rest : List HostEvent} (h : s.inputs = e :: rest) :
    hostTurn s = hostEvent e { s with inputs := rest } := by simp only [hostTurn, h]

/-- A step of the core does to a state what it does to the same state elsewhere in a tick (R51, R103). -/
theorem cpuStep_batch (s : State) (b : Option Nat) :
    cpuStep { s with batch := b } = onNext (fun t => { t with batch := b }) (cpuStep s) := by
  have hf : fetchWord { s with batch := b } = fetchWord s := rfl
  have ha : advance { s with batch := b } = { advance s with batch := b } := rfl
  simp only [cpuStep, hf, ha]
  cases firstBadAddr s.params.addrPolicy s.pc.toNat 2 with
  | some a => rfl
  | none =>
    cases decodeWord (fetchWord s) with
    | ok i => exact exec_batch i (advance s) b
    | error e => simp only [execUndefined]; cases (advance s).params.undefinedSubop <;> rfl

/-- A turn that finds a latched fault ends the tick and does nothing else (R97, R103). -/
theorem tickTurn_halted {s : State} (n : Nat) (h : s.fault ≠ none) : tickTurn n s = .next { s with batch := none } := by
  have hs : s.fault.isSome = true := Option.isSome_iff_ne_none.2 h
  simp only [tickTurn, hs, if_true]

/-- A turn of a paused core, or with no turn left, goes to the tick's end (R103). -/
theorem tickTurn_end {s : State} {n : Nat} (h : s.fault = none) (hn : s.paused = true ∨ n = 0) :
    tickTurn n s = .next (finishTick { s with batch := none }) := by
  have hs : ¬ s.fault.isSome = true := by simp [h]
  have hc : (s.paused || n == 0) = true := by rcases hn with hn | hn <;> simp [hn]
  simp only [tickTurn, if_neg hs, if_pos hc]

/-- Any other turn is one step of the core (R103). -/
theorem tickTurn_run {s : State} {n : Nat} (h : s.fault = none) (hp : s.paused = false) :
    tickTurn (n + 1) s = cpuStep { s with batch := some n } := by
  have hs : ¬ s.fault.isSome = true := by simp [h]
  have hc : ¬ (s.paused || n + 1 == 0) = true := by simp [hp]
  simp only [tickTurn, if_neg hs, if_neg hc, Nat.add_sub_cancel]

/-- The two conditions of the decrement, as arithmetic (R104). -/
theorem toNat_countDown (b : Byte) : (if 0 < b then b - 1 else b).toNat = b.toNat - 1 := by
  revert b; decide

/-- Everything one step of the core can do (R51, R49): a fetch fault, the fetched instruction, or an undefined word. -/
theorem cpuStep_cases {s t : State} (h : cpuStep s = .next t) :
    (∃ a, s.params.addrPolicy = .fault ∧ 0xFFF < a ∧ t = latchFault .addressOutOfRange s.pc none (.address a) s) ∨
    (∃ i, decodeWord (fetchWord s) = .ok i ∧ exec i (advance s) = .next t) ∨
    (decodeWord (fetchWord s) = .error (.undefinedWord (fetchWord s)) ∧
      (t = advance s ∨ t = raised (advance s) .unknownOpcode (fetchWord s) .none)) := by
  unfold cpuStep at h
  split at h
  · rename_i a e; rw [firstBadAddr_some] at e; cases h; exact Or.inl ⟨a, e.1, by omega, rfl⟩
  · split at h
    · exact Or.inr (Or.inl ⟨_, by assumption, h⟩)
    · rename_i hd
      refine Or.inr (Or.inr ⟨by rw [hd, decodeWord_error hd], ?_⟩)
      unfold execUndefined at h
      split at h <;> cases h
      · exact Or.inl rfl
      · exact Or.inr rfl

/-- Between ticks a step is a host event: the next of the host's list, or a tick when the list is empty (R114). -/
theorem step_between_cases {s t : State} (hb : s.batch = none) (h : step s = .next t) :
    ∃ e rest, (s.inputs = e :: rest ∨ (s.inputs = [] ∧ rest = [] ∧ e = .tick s.params.cyclesPerTick)) ∧
      hostEvent e { s with inputs := rest } = .next t := by
  rw [step_between hb] at h
  unfold hostTurn at h
  split at h
  · rename_i e rest q; exact ⟨e, rest, Or.inl q, h⟩
  · rename_i q
    refine ⟨_, [], Or.inr ⟨q, rfl, rfl⟩, ?_⟩
    rw [← h]; congr 1; cases s; simp only at q; subst q; rfl

end Sys2Proof.Machine
end

