-- ==== Sys2Proof/Tests/Slice0.lean ====
section
/-! SUPPORT. Checks of the model on fixed values. Every expected value is the spec's: the words are written from R45 and
R48, the results are those of spec/95_test_vectors.md (each theorem names its vector). Then one witness per statement that
has hypotheses: a concrete state and operands that meet them together. -/

namespace Sys2Proof.Tests

open Sys2Proof Sys2Proof.Machine

/-! ### Well-formedness (R48, R57): the one check, on both ill-formed operands and beside them -/

theorem test_wf_sys_cls : Instr.wf (.sys 0x0E0) = false := by decide
theorem test_wf_sys_ret : Instr.wf (.sys 0x0EE) = false := by decide
theorem test_wf_sys_between : Instr.wf (.sys 0x0E1) = true := by decide

/-! ### Decoding: one word per constructor, bit by bit from R48, and its encoding back -/

theorem decode_cls : Encodes 0b0000000011100000#16 (.cls) := ⟨by decide, by decide⟩
theorem decode_ret : Encodes 0b0000000011101110#16 (.ret) := ⟨by decide, by decide⟩
theorem decode_sys : Encodes 0b0000000100100011#16 (.sys 0x123) := ⟨by decide, by decide⟩
theorem decode_jp : Encodes 0b0001101010111100#16 (.jp 0xABC) := ⟨by decide, by decide⟩
theorem decode_call : Encodes 0b0010101010111100#16 (.call 0xABC) := ⟨by decide, by decide⟩
theorem decode_seImm : Encodes 0b0011001100010010#16 (.seImm 3 0x12) := ⟨by decide, by decide⟩
theorem decode_sneImm : Encodes 0b0100001100010010#16 (.sneImm 3 0x12) := ⟨by decide, by decide⟩
theorem decode_seReg : Encodes 0b0101001101000000#16 (.seReg 3 4) := ⟨by decide, by decide⟩
theorem decode_ldImm : Encodes 0b0110000111000011#16 (.ldImm 1 0xC3) := ⟨by decide, by decide⟩
theorem decode_addImm : Encodes 0b0111000100000001#16 (.addImm 1 0x01) := ⟨by decide, by decide⟩
theorem decode_ldReg : Encodes 0b1000000100100000#16 (.ldReg 1 2) := ⟨by decide, by decide⟩
theorem decode_or : Encodes 0b1000000100100001#16 (.or 1 2) := ⟨by decide, by decide⟩
theorem decode_and : Encodes 0b1000000100100010#16 (.and 1 2) := ⟨by decide, by decide⟩
theorem decode_xor : Encodes 0b1000000100100011#16 (.xor 1 2) := ⟨by decide, by decide⟩
theorem decode_addReg : Encodes 0b1000000100100100#16 (.addReg 1 2) := ⟨by decide, by decide⟩
theorem decode_sub : Encodes 0b1000000100100101#16 (.sub 1 2) := ⟨by decide, by decide⟩
theorem decode_shr : Encodes 0b1000000100100110#16 (.shr 1 2) := ⟨by decide, by decide⟩
theorem decode_subn : Encodes 0b1000000100100111#16 (.subn 1 2) := ⟨by decide, by decide⟩
theorem decode_shl : Encodes 0b1000000100101110#16 (.shl 1 2) := ⟨by decide, by decide⟩
theorem decode_sneReg : Encodes 0b1001001101000000#16 (.sneReg 3 4) := ⟨by decide, by decide⟩
theorem decode_ldI : Encodes 0b1010101111001101#16 (.ldI 0xBCD) := ⟨by decide, by decide⟩
theorem decode_jpV0 : Encodes 0b1011001100000000#16 (.jpV0 0x300) := ⟨by decide, by decide⟩
theorem decode_rnd : Encodes 0b1100001100001111#16 (.rnd 3 0x0F) := ⟨by decide, by decide⟩
theorem decode_drw : Encodes 0b1101000100100101#16 (.drw 1 2 5) := ⟨by decide, by decide⟩
theorem decode_skp : Encodes 0b1110010110011110#16 (.skp 5) := ⟨by decide, by decide⟩
theorem decode_sknp : Encodes 0b1110010110100001#16 (.sknp 5) := ⟨by decide, by decide⟩
theorem decode_ldDtRead : Encodes 0b1111010000000111#16 (.ldDtRead 4) := ⟨by decide, by decide⟩
theorem decode_ldK : Encodes 0b1111001100001010#16 (.ldK 3) := ⟨by decide, by decide⟩
theorem decode_ldDtWrite : Encodes 0b1111001100010101#16 (.ldDtWrite 3) := ⟨by decide, by decide⟩
theorem decode_ldSt : Encodes 0b1111000000011000#16 (.ldSt 0) := ⟨by decide, by decide⟩
theorem decode_addI : Encodes 0b1111000000011110#16 (.addI 0) := ⟨by decide, by decide⟩
theorem decode_ldF : Encodes 0b1111000000101001#16 (.ldF 0) := ⟨by decide, by decide⟩
theorem decode_ldB : Encodes 0b1111000000110011#16 (.ldB 0) := ⟨by decide, by decide⟩
theorem decode_stRegs : Encodes 0b1111000101010101#16 (.stRegs 1) := ⟨by decide, by decide⟩
theorem decode_ldRegs : Encodes 0b1111001001100101#16 (.ldRegs 2) := ⟨by decide, by decide⟩

theorem decode_undefined_5xy1 : decodeWord 0x5341 = .error (.undefinedWord 0x5341) := by decide
theorem decode_undefined_8xy8 : decodeWord 0x8008 = .error (.undefinedWord 0x8008) := by decide
theorem decode_undefined_ex9f : decodeWord 0xE09F = .error (.undefinedWord 0xE09F) := by decide
theorem decode_undefined_fx75 : decodeWord 0xF075 = .error (.undefinedWord 0xF075) := by decide
theorem decode_truncated : decode [0x12] = .error .truncated := by decide
theorem decode_leaves_rest : decode [0x13, 0x08, 0xAA] = .ok (.jp 0x308, [0xAA]) := by decide
theorem decode_table_word : decodeTableWord 16 0x8124 = some (.addReg 1 2) := by decide

/-! ### One step each, from spec/95_test_vectors.md -/

/-- The state one step after the opcode is placed at pc. -/
def after (op : Nat) (s : State) : Option State :=
  match step (s.withFetchWord 16 op) with
  | .next t => some t
  | _ => none

/-- The state after construction with some registers set. -/
def regs (l : List (Nibble × Byte)) (s : State := State.reset) : State := l.foldl (fun s p => writeV s p.1 p.2) s

/-- The state after construction under other policies. -/
def flagLast : State := { State.reset with params := { defaultParams with vfAliasOrder := .flagLast } }
def addrFault : State := { State.reset with params := { defaultParams with addrPolicy := .fault } }
def undefinedFault : State := { State.reset with params := { defaultParams with undefinedSubop := .fault } }
def modulo : State := { State.reset with params := { defaultParams with coordPolicy := .modulo } }
def lowNibble : State := { State.reset with params := { defaultParams with keyRangePolicy := .lowNibble } }
def notPressed : State := { State.reset with params := { defaultParams with keyRangePolicy := .notPressed } }

/-- Sprite bytes at 0x300, I there, the origin in V1 and V2, VF = AA (2.6). -/
def sprite (l : List Byte) (x y : Byte) (s : State := State.reset) : State :=
  { storeBytes (regs [(1, x), (2, y), (15, 0xAA)] s) 0x300 l with i := 0x300 }

def pcOf (s : State) : Nat := s.pc.toNat
def vOf (l : List Nibble) (s : State) : List Nat := l.map fun x => (readV s x).toNat
def memOf (a n : Nat) (s : State) : List Nat := (readBytes s a n).map (·.toNat)

/-- V1. -/
theorem test_jp : (after 0x1ABC State.reset).map pcOf = some 0xABC := by decide
/-- V2. -/
theorem test_call : (after 0x2ABC State.reset).map (fun t => (pcOf t, t.stack)) = some (0xABC, [0x202]) := by decide
/-- V4, step 17. -/
theorem test_call_full : (after 0x2200 { State.reset with stack := List.replicate 16 0x202 }).map
    (fun t => (pcOf t, t.stack.length, t.fault)) =
      some (0x202, 16, some { code := .stackOverflow, pc := 0x200, opcode := some 0x2200, info := .none }) := by decide
/-- S6, step 2. -/
theorem test_ret : (after 0x00EE { State.reset with pc := 0x300, stack := [0x202] }).map (fun t => (pcOf t, t.stack)) =
    some (0x202, []) := by decide
/-- V3. -/
theorem test_ret_empty : (after 0x00EE State.reset).map (fun t => (pcOf t, t.fault)) =
    some (0x202, some { code := .stackUnderflow, pc := 0x200, opcode := some 0x00EE, info := .none }) := by decide
/-- S8. -/
theorem test_sys : (after 0x0123 (regs [(0, 5)])).map (fun t => (pcOf t, vOf [0] t)) = some (0x202, [5]) := by decide
/-- V7. -/
theorem test_sys_pc_wraps : (after 0x0000 { State.reset with pc := 0xFFFE }).map pcOf = some 0x0000 := by decide
/-- V5. -/
theorem test_jpV0 : (after 0xB300 (regs [(0, 2)])).map pcOf = some 0x302 := by decide
/-- V6. -/
theorem test_jpV0_not_reduced : (after 0xBFFF (regs [(0, 0xFF)])).map pcOf = some 0x10FE := by decide
/-- V9. -/
theorem test_fetch_fault : (after 0x6A42 { addrFault with pc := 0xFFF }).map (fun t => (pcOf t, t.fault)) =
    some (0xFFF, some { code := .addressOutOfRange, pc := 0xFFF, opcode := none, info := .address 0x1000 }) := by decide
/-- V10. -/
theorem test_fetch_wraps : (after 0x6A42 { State.reset with pc := 0xFFF }).map (fun t => (pcOf t, vOf [10] t)) =
    some (0x1001, [0x42]) := by decide
/-- V20, both settings. -/
theorem test_undefined_nop : (after 0x5341 State.reset).map (fun t => (pcOf t, t.fault)) = some (0x202, none) := by decide
theorem test_undefined_fault : (after 0x5341 undefinedFault).map (fun t => (pcOf t, t.fault)) =
    some (0x202, some { code := .unknownOpcode, pc := 0x200, opcode := some 0x5341, info := .none }) := by decide

/-- V11, V12. -/
theorem test_seImm : (after 0x3312 (regs [(3, 0x12)])).map pcOf = some 0x204 := by decide
theorem test_seImm_not : (after 0x3313 (regs [(3, 0x12)])).map pcOf = some 0x202 := by decide
/-- V13, V14. -/
theorem test_sneImm_not : (after 0x4312 (regs [(3, 0x12)])).map pcOf = some 0x202 := by decide
theorem test_sneImm : (after 0x4313 (regs [(3, 0x12)])).map pcOf = some 0x204 := by decide
/-- V15, V16. -/
theorem test_seReg : (after 0x5340 (regs [(3, 0x12), (4, 0x12)])).map pcOf = some 0x204 := by decide
theorem test_seReg_not : (after 0x5340 (regs [(3, 0x12), (4, 0x13)])).map pcOf = some 0x202 := by decide
/-- V17, V18. -/
theorem test_sneReg : (after 0x9340 (regs [(3, 0x12), (4, 0x13)])).map pcOf = some 0x204 := by decide
theorem test_sneReg_not : (after 0x9340 (regs [(3, 0x12), (4, 0x12)])).map pcOf = some 0x202 := by decide

/-- V22. -/
theorem test_ldImm : (after 0x61C3 (regs [(15, 0xAA)])).map (vOf [1, 15]) = some [0xC3, 0xAA] := by decide
/-- V23. -/
theorem test_addImm_wraps : (after 0x7101 (regs [(1, 0xFF), (15, 0xAA)])).map (vOf [1, 15]) = some [0x00, 0xAA] := by decide
/-- V27. -/
theorem test_ldReg : (after 0x8120 (regs [(2, 0x34), (15, 0xAA)])).map (vOf [1, 15]) = some [0x34, 0xAA] := by decide
/-- V24, V25, V26. -/
theorem test_or : (after 0x8121 (regs [(1, 0xF0), (2, 0x0C), (15, 0xAA)])).map (vOf [1, 15]) = some [0xFC, 0xAA] := by decide
theorem test_and : (after 0x8122 (regs [(1, 0xF0), (2, 0x3C), (15, 0xAA)])).map (vOf [1, 15]) = some [0x30, 0xAA] := by decide
theorem test_xor : (after 0x8123 (regs [(1, 0xF0), (2, 0x3C), (15, 0xAA)])).map (vOf [1, 15]) = some [0xCC, 0xAA] := by decide
/-- V28; V41 under both orders. -/
theorem test_addReg_carry : (after 0x8124 (regs [(1, 0xFF), (2, 0x01), (15, 0xAA)])).map (vOf [1, 15]) = some [0x00, 0x01] := by decide
theorem test_addReg_alias : (after 0x8F14 (regs [(15, 0xFF), (1, 0x03)])).map (vOf [15]) = some [0x02] ∧
    (after 0x8F14 (regs [(15, 0xFF), (1, 0x03)] flagLast)).map (vOf [15]) = some [0x01] := by decide
/-- V33; V48 under both orders. -/
theorem test_sub_equal : (after 0x8125 (regs [(1, 5), (2, 5), (15, 0xAA)])).map (vOf [1, 15]) = some [0x00, 0x00] := by decide
theorem test_sub_alias : (after 0x80F5 (regs [(0, 5), (15, 3)])).map (vOf [0, 15]) = some [0x04, 0x01] ∧
    (after 0x80F5 (regs [(0, 5), (15, 3)] flagLast)).map (vOf [0, 15]) = some [0x02, 0x01] := by decide
/-- V39a; V45 under both orders. -/
theorem test_shr : (after 0x8126 (regs [(1, 5), (2, 0x77)])).map (vOf [1, 15]) = some [0x02, 0x01] := by decide
theorem test_shr_alias : (after 0x8F16 (regs [(15, 3)])).map (vOf [15]) = some [0x00] ∧
    (after 0x8F16 (regs [(15, 3)] flagLast)).map (vOf [15]) = some [0x01] := by decide
/-- V36; V44 under both orders. -/
theorem test_subn_borrow : (after 0x8127 (regs [(1, 2), (2, 1)])).map (vOf [1, 15]) = some [0xFF, 0x00] := by decide
theorem test_subn_alias : (after 0x8F17 (regs [(15, 3), (1, 0x10)])).map (vOf [15]) = some [0x0F] ∧
    (after 0x8F17 (regs [(15, 3), (1, 0x10)] flagLast)).map (vOf [15]) = some [0x01] := by decide
/-- V40a; V46 under both orders. -/
theorem test_shl : (after 0x812E (regs [(1, 0x81)])).map (vOf [1, 15]) = some [0x02, 0x01] := by decide
theorem test_shl_alias : (after 0x8F1E (regs [(15, 0x81)])).map (vOf [15]) = some [0x02] ∧
    (after 0x8F1E (regs [(15, 0x81)] flagLast)).map (vOf [15]) = some [0x01] := by decide
/-- V50, with the draw left open; a second draw is another one. -/
theorem test_rnd_masks : (after 0xC30F State.reset).map (fun t => (readV t 3, t.randDraws)) =
    some (Config.rand8 0 &&& 0x0F, 1) := rfl

/-- V53. -/
theorem test_ldI : (after 0xABCD State.reset).map (fun t => t.i) = some 0xBCD := by decide
/-- V54, V55. -/
theorem test_addI_wraps : (after 0xF01E { regs [(0, 1), (15, 0xAA)] with i := 0xFFFF }).map (fun t => (t.i, vOf [15] t)) =
    some (0x0000, [0xAA]) := by decide
theorem test_addI_not_reduced : (after 0xF01E { regs [(0, 2)] with i := 0x0FFF }).map (fun t => t.i) = some 0x1001 := by decide
/-- V58. -/
theorem test_ldF_no_mask : (after 0xF029 (regs [(0, 0xFF)])).map (fun t => t.i) = some 0x4FB := by decide
/-- V60, V61. -/
theorem test_ldB_wraps : (after 0xF033 { regs [(0, 0xFF)] with i := 0xFFE }).map (fun t => memOf 0xFFE 3 t) =
    some [2, 5, 5] := by decide
theorem test_ldB_fault : (after 0xF033 { regs [(0, 0xFF)] addrFault with i := 0xFFE }).map
    (fun t => (pcOf t, memOf 0xFFE 2 t, t.fault)) =
      some (0x202, [0, 0], some { code := .addressOutOfRange, pc := 0x200, opcode := some 0xF033, info := .address 0x1000 }) := by
  decide
/-- V62, for V0 to V2 of it. -/
theorem test_stRegs : (after 0xF255 { regs [(0, 0x10), (1, 0x11), (2, 0x12), (3, 0x13)] with i := 0x300 }).map
    (fun t => (t.i, memOf 0x300 4 t)) = some (0x300, [0x10, 0x11, 0x12, 0]) := by decide
/-- V63, V64. -/
theorem test_ldRegs_leaves_rest : (after 0xF065 { memWrite (regs [(1, 0x55)]) 0x300 0x77 with i := 0x300 }).map
    (fun t => (t.i, vOf [0, 1] t)) = some (0x300, [0x77, 0x55]) := by decide
theorem test_ldRegs_wraps : (after 0xF265 { storeBytes State.reset 0xFFF [1, 2, 3] with i := 0xFFF }).map (vOf [0, 1, 2]) =
    some [1, 2, 3] := by decide

/-- V65, each step. -/
theorem test_ldDtWrite : (after 0xF315 (regs [(3, 0x3C)])).map (fun t => t.dt) = some 0x3C := by decide
theorem test_ldDtRead : (after 0xF407 { State.reset with dt := 0x3C }).map (vOf [4]) = some [0x3C] := by decide
/-- V67, the second step of it: the tone bit does not follow ST yet. -/
theorem test_ldSt : (after 0xF018 (regs [(0, 2)])).map (fun t => (t.st, t.tone)) = some (2, false) := by decide
/-- V66: the end of a tick. -/
theorem test_tick_end : (match step { State.reset with dt := 1, st := 1, batch := some 0 } with
    | .next t => some (t.dt, t.st, t.tone, t.batch, t.outputs)
    | _ => none) = some (0, 0, false, none, [.frameReady]) := by decide
/-- V70: the end of a paused tick. -/
theorem test_tick_paused : (match step { State.reset with dt := 3, st := 3, paused := true, waitReg := some 0, batch := some 10 } with
    | .next t => some (t.dt, t.st, t.tone, t.batch, t.outputs)
    | _ => none) = some (3, 3, true, none, [.frameReady]) := by decide

/-- V86, on one cell. -/
theorem test_cls : (after 0x00E0 { regs [(15, 0xAA)] with disp := Vector.replicate 2048 true }).map
    (fun t => (t.disp[2047], vOf [15] t)) = some (false, [0xAA]) := by decide +kernel
/-- V77 (the last coordinate in contract), V83 and V84: the wrap, the collision and the zero bit. -/
theorem test_drw : (after 0xD121 (sprite [0x01] 0x78 0)).map (fun t => (t.disp[63], t.disp[62], vOf [15] t)) =
      some (true, false, [0]) ∧
    (after 0xD121 { sprite [0xC0] 0 0 with disp := (Vector.replicate 2048 false).set 1 true }).map
      (fun t => (t.disp[0], t.disp[1], vOf [15] t)) = some (true, false, [1]) ∧
    (after 0xD121 { sprite [0x40] 0 0 with disp := (Vector.replicate 2048 false).set 0 true }).map
      (fun t => (t.disp[0], t.disp[1], vOf [15] t)) = some (true, true, [0]) := by decide +kernel
/-- V78 (the first coordinate out of contract) and V80: both settings of `COORD_POLICY`. -/
theorem test_drw_out_of_contract : (after 0xD121 (sprite [0x80] 0x80 0)).map (fun t => (t.disp[0], vOf [15] t, t.fault)) =
      some (false, [0xAA],
        some { code := .coordinateOutOfContract, pc := 0x200, opcode := some 0xD121, info := .coords 128 0 }) ∧
    (after 0xD121 (sprite [0x80] 200 40 modulo)).map (fun t => t.disp[8 * 64 + 8]) = some true := by decide +kernel

/-- V88, V89. -/
theorem test_skp : (after 0xE59E { regs [(5, 0x0A)] with keys := State.reset.keys.set 10 true }).map pcOf = some 0x204 := by decide
theorem test_skp_not : (after 0xE59E (regs [(5, 0x0A)])).map pcOf = some 0x202 := by decide
/-- V90; V93 and V94. -/
theorem test_sknp : (after 0xE5A1 (regs [(5, 0x0A)])).map pcOf = some 0x204 := by decide
theorem test_sknp_range : (after 0xE0A1 (regs [(0, 0x13)] notPressed)).map pcOf = some 0x204 ∧
    (after 0xE0A1 { regs [(0, 0x13)] lowNibble with keys := State.reset.keys.set 3 true }).map pcOf = some 0x202 := by decide
/-- V95, the step. -/
theorem test_ldK : (after 0xF30A State.reset).map (fun t => (pcOf t, t.paused, t.waitReg, vOf [3] t)) =
    some (0x202, true, some 3, [0]) := by decide
/-- V98, the event. -/
theorem test_onKeyPress : (match step { State.reset with paused := true, waitReg := some 15, inputs := [.onKeyPress 12] } with
    | .next t => some (t.paused, t.waitReg, vOf [15] t)
    | _ => none) = some (false, none, [12]) := by decide
/-- V101, the first and the last five bytes. -/
theorem test_loadFont : (memOf 0 5 (loadFont State.reset), memOf 75 5 (loadFont State.reset)) =
    ([0xF0, 0x90, 0x90, 0x90, 0xF0], [0xF0, 0x80, 0xF0, 0x80, 0x80]) := by decide
/-- R53: the assembler text of P3's DRW and of P8's undefined word. -/
theorem test_disassemble : disassemble 0xD125 = "DRW V1, V2, 5".toList ∧ disassemble 0x8008 = "DW 0x8008".toList := by decide

/-! ### Witnesses: a concrete state and operands meet the hypotheses of each statement that has some, each clause at a
boundary value -/

/-- A state inside a tick with one turn left. -/
def running (s : State) : State := { s with batch := some 1 }

theorem running_runs (s : State) (hp : s.paused = false) (hf : s.fault = none) : (running s).runs 0 := ⟨rfl, hp, hf⟩

theorem witness_DecodeOfEncodeIsTheInstruction : Instr.wf (.sys 0x0EF) = true := by decide
theorem witness_EncodeOfDecodeIsTheWord : decodeWord 0x812E = .ok (.shl 1 2) := by decide

/-- 812E at 0xFFE and 0xFFF, the last pair of bytes `ADDR_POLICY = fault` lets a fetch read. -/
def atTheEnd (p : AddrPolicy) (hi lo : Byte) : State :=
  running (storeBytes { State.reset with pc := 0xFFE, params := { defaultParams with addrPolicy := p } } 0xFFE [hi, lo])

theorem witness_StepRunsTheDecodedInstruction : (atTheEnd .fault 0x81 0x2E).runs 0 ∧ AddrsOk (atTheEnd .fault 0x81 0x2E) 0xFFE 2 ∧
    decode [memRead (atTheEnd .fault 0x81 0x2E) 0xFFE, memRead (atTheEnd .fault 0x81 0x2E) 0xFFF] = .ok (.shl 1 2, []) :=
  ⟨running_runs _ rfl rfl, by unfold AddrsOk; decide, by decide⟩
theorem witness_UndefinedWordStep : (atTheEnd .wrap 0x53 0x41).runs 0 ∧ AddrsOk (atTheEnd .wrap 0x53 0x41) 0xFFE 2 ∧
    decode [memRead (atTheEnd .wrap 0x53 0x41) 0xFFE, memRead (atTheEnd .wrap 0x53 0x41) 0xFFF] = .error (.undefinedWord 0x5341) ∧
    (atTheEnd .wrap 0x53 0x41).params.undefinedSubop = .nop :=
  ⟨running_runs _ rfl rfl, by unfold AddrsOk; decide, by decide, rfl⟩
/-- 5341 at pc under `UNDEFINED_SUBOP = fault`. -/
def undefinedAtPc : State := running (storeBytes undefinedFault 0x200 [0x53, 0x41])
theorem witness_UndefinedWordStep_fault : undefinedAtPc.runs 0 ∧ AddrsOk undefinedAtPc undefinedAtPc.pc.toNat 2 ∧
    decode [memRead undefinedAtPc undefinedAtPc.pc.toNat, memRead undefinedAtPc (undefinedAtPc.pc.toNat + 1)] =
      .error (.undefinedWord 0x5341) ∧ undefinedAtPc.params.undefinedSubop = .fault :=
  ⟨running_runs _ rfl rfl, by unfold AddrsOk; decide, by decide, rfl⟩
/-- The first pc whose fetch raises. -/
theorem witness_FetchFaultLeavesPc : (running { addrFault with pc := 0xFFF }).runs 0 ∧
    (running { addrFault with pc := 0xFFF }).params.addrPolicy = .fault ∧
    0xFFF < (running { addrFault with pc := 0xFFF }).pc.toNat + 1 := ⟨running_runs _ rfl rfl, rfl, by decide⟩
/-- The last run that raises nothing, the first that does, and the empty run. -/
theorem witness_AddressCheckFindsTheFirstBadOne : AddrsOk addrFault 0xFFE 2 ∧ ¬ AddrsOk addrFault 0xFFF 2 ∧
    AddrsOk addrFault 0xFFFF 0 ∧ AddrsOk State.reset 0xFFFF 16 := by unfold AddrsOk; decide
theorem witness_JumpsAndNoOp : (0x0E1 : Addr12) ≠ 0x0E0 ∧ (0x0E1 : Addr12) ≠ 0x0EE := by decide
/-- One below the capacity, and at it. -/
theorem witness_CallPushesTheReturnAddress : (List.replicate 15 (0x202 : Word)).length ≠ State.reset.params.stackCapacity ∧
    (List.replicate 16 (0x202 : Word)).length = State.reset.params.stackCapacity := by decide
theorem witness_ReturnPopsTheStack : ({ State.reset with stack := [0x202] } : State).stack = [] ++ [0x202] ∧
    State.reset.stack = [] := ⟨rfl, rfl⟩
theorem witness_ReturnUndoesCall : State.reset.stack.length ≠ State.reset.params.stackCapacity := by decide
/-- The last value that names a key, and the first that does not, under each setting. -/
theorem witness_KeySkipsReadTheKey : (readV (regs [(0, 15)]) 0).toNat < 16 ∧ 15 < (readV (regs [(0, 16)]) 0).toNat ∧
    (regs [(0, 16)]).params.keyRangePolicy = .draw ∧ (regs [(0, 16)] notPressed).params.keyRangePolicy = .notPressed ∧
    (regs [(0, 16)] lowNibble).params.keyRangePolicy = .lowNibble := by decide
/-- Both orders, which the clauses with x = 15 and with an order name. -/
theorem witness_alias_orders : State.reset.params.vfAliasOrder = .asWritten ∧ flagLast.params.vfAliasOrder = .flagLast ∧
    (14 : Nibble) ≠ 15 := by decide
theorem witness_AliasOrderNotObservable : (1 : Nibble) ≠ 15 ∧ (14 : Nibble) ≠ 15 ∧
    Instr.sub 1 14 ∈ [Instr.addReg 1 14, .sub 1 14, .shr 1 14, .subn 1 14, .shl 1 14] := by decide
/-- The last I from which Fx33 raises nothing, and the first from which it does. -/
theorem witness_BcdStoresThreeDigits : AddrsOk { addrFault with i := 0xFFD } (baseI { addrFault with i := 0xFFD }) 3 ∧
    ¬ AddrsOk { addrFault with i := 0xFFE } (baseI { addrFault with i := 0xFFE }) 3 := by unfold AddrsOk; decide
/-- The same for Fx55 and Fx65 with x = 15: 16 bytes. -/
theorem witness_StoreRegistersWritesTheRun :
    AddrsOk { addrFault with i := 0xFF0 } (baseI { addrFault with i := 0xFF0 }) ((15 : Nibble).toNat + 1) ∧
    ¬ AddrsOk { addrFault with i := 0xFF1 } (baseI { addrFault with i := 0xFF1 }) ((15 : Nibble).toNat + 1) := by
  unfold AddrsOk; decide
theorem witness_LoadRegistersReadsTheRun :
    AddrsOk { addrFault with i := 0xFFF } (baseI { addrFault with i := 0xFFF }) ((0 : Nibble).toNat + 1) ∧
    ¬ AddrsOk { addrFault with i := 0x1000 } (baseI { addrFault with i := 0x1000 }) ((0 : Nibble).toNat + 1) := by
  unfold AddrsOk; decide
theorem witness_LoadAfterStoreRestoresRegisters : AddrsOk (regs [(1, 7)]) (baseI (regs [(1, 7)])) ((1 : Nibble).toNat + 1) ∧
    exec (.stRegs 1) (regs [(1, 7)]) = .next (storeBytes (regs [(1, 7)]) 0 [0, 7]) ∧
    (storeBytes (regs [(1, 7)]) 0 [0, 7]).mem = (storeBytes (regs [(1, 7)]) 0 [0, 7]).mem ∧
    (storeBytes (regs [(1, 7)]) 0 [0, 7]).i = (storeBytes (regs [(1, 7)]) 0 [0, 7]).i ∧
    (storeBytes (regs [(1, 7)]) 0 [0, 7]).params = (storeBytes (regs [(1, 7)]) 0 [0, 7]).params :=
  ⟨by unfold AddrsOk; decide, rfl, rfl, rfl, rfl⟩
/-- The corners of the single-wrap range. -/
theorem witness_SetPixelTogglesOneCell : ((-64 : Int) ≤ -64 ∧ (-64 : Int) < 128) ∧ ((-64 : Int) ≤ 127 ∧ (127 : Int) < 128) ∧
    ((-32 : Int) ≤ -32 ∧ (-32 : Int) < 64) ∧ ((-32 : Int) ≤ 63 ∧ (63 : Int) < 64) := by decide

/-- V77: the one set bit is in column 7, at x = 127, the last in contract. -/
theorem coordsOk_v77 : CoordsOk (sprite [0x01] 0x78 0) 1 2 1 := by
  refine Or.inr fun r c hr hc hb => ?_
  have h0 : r = 0 := Nat.lt_one_iff.1 hr
  have hx : (readV (sprite [0x01] 0x78 0) 1).toNat = 120 := by decide
  have hy : (readV (sprite [0x01] 0x78 0) 2).toNat = 0 := by decide
  unfold BitInContract
  omega
/-- V77 draws nothing over a lit pixel; the same over a lit display collides. -/
theorem witness_DrawInvertsTheSpriteCells : AddrsOk (sprite [0x01] 0x78 0) (baseI (sprite [0x01] 0x78 0)) (1 : Nibble).toNat ∧
    CoordsOk (sprite [0x01] 0x78 0) 1 2 1 ∧ SpriteHits (sprite [0x01] 0x78 0) 1 2 1 63 ∧
    (sprite [0x01] 0x78 0).disp[63] = false :=
  ⟨by unfold AddrsOk; decide, coordsOk_v77, ⟨0, 7, by decide⟩, by decide⟩
theorem witness_DrawInvertsTheSpriteCells_collides :
    SpriteHits { sprite [0x01] 0x78 0 with disp := Vector.replicate 2048 true } 1 2 1 63 ∧
    ({ sprite [0x01] 0x78 0 with disp := Vector.replicate 2048 true } : State).disp[63] = true :=
  ⟨⟨0, 7, by decide⟩, by decide⟩
/-- I at the first address that raises. -/
theorem witness_DrawFaultsLeaveTheDisplay_address : ¬ AddrsOk { addrFault with i := 0x1000 } (baseI { addrFault with i := 0x1000 })
    (1 : Nibble).toNat := by unfold AddrsOk; decide
/-- V78: the first set bit is the first column out of contract, and no bit stands before it. -/
theorem witness_DrawFaultsLeaveTheDisplay_coordinate : AddrsOk (sprite [0x80] 0x80 0) (baseI (sprite [0x80] 0x80 0)) (1 : Nibble).toNat ∧
    (sprite [0x80] 0x80 0).params.coordPolicy = .fault ∧ spriteBit (sprite [0x80] 0x80 0) 0 0 = true ∧
    ¬ BitInContract (sprite [0x80] 0x80 0) 1 2 0 0 ∧
    ∀ r' c', c' < 8 → (r' < 0 ∨ r' = 0 ∧ c' < 0) → spriteBit (sprite [0x80] 0x80 0) r' c' = true →
      BitInContract (sprite [0x80] 0x80 0) 1 2 r' c' :=
  ⟨by unfold AddrsOk; decide, rfl, by decide, by unfold BitInContract; decide, fun r' c' _ h _ => by omega⟩
theorem witness_DrawTwiceRestoresTheDisplay : (1 : Nibble) ≠ 15 ∧ (2 : Nibble) ≠ 15 ∧
    AddrsOk (sprite [0x01] 0x78 0) (baseI (sprite [0x01] 0x78 0)) (1 : Nibble).toNat ∧ CoordsOk (sprite [0x01] 0x78 0) 1 2 1 ∧
    ∃ (c : Nat) (h : c < 2048), SpriteHits (sprite [0x01] 0x78 0) 1 2 1 c ∧ (sprite [0x01] 0x78 0).disp[c] = false :=
  ⟨by decide, by decide, by unfold AddrsOk; decide, coordsOk_v77, 63, by decide, ⟨0, 7, by decide⟩, by decide⟩

/-- A core waiting for a key into VF. -/
def waiting (e : List HostEvent) : State := { State.reset with paused := true, waitReg := some 15, inputs := e }
def halted (e : List HostEvent) : State :=
  { State.reset with inputs := e, fault := some { code := .stackUnderflow, pc := 0x200, opcode := some 0x00EE, info := .none } }

theorem witness_KeyWaitEndsAtTheKeyPress : 15 < 16 ∧
    exec (.ldK 15) State.reset = .next { State.reset with paused := true, waitReg := some 15 } ∧
    (waiting [.onKeyPress 15]).waitReg = some 15 ∧ (waiting [.onKeyPress 15]).batch = none ∧
    (waiting [.onKeyPress 15]).inputs = [.onKeyPress 15] := ⟨by decide, rfl, rfl, rfl, rfl⟩
theorem witness_KeyEventsBetweenTicks : 15 < 16 ∧ State.reset.batch = none ∧ State.reset.waitReg = none ∧
    ({ State.reset with inputs := [.onKeyPress 15] } : State).inputs = [.onKeyPress 15] ∧
    (waiting [.keyDown 0]).inputs = [.keyDown 0] ∧ (waiting [.keyUp 0]).inputs = [.keyUp 0] ∧ 0 < 16 :=
  ⟨by decide, rfl, rfl, rfl, rfl, rfl, by decide⟩
/-- The last key index that is an event, and the first that is refused. -/
theorem witness_RefusalsAreOnlyOutOfContractEvents : (running State.reset).batch ≠ none ∧ State.reset.batch = none ∧ 15 < 16 ∧
    ∀ k, HostEvent.keyDown 15 = .keyDown k ∨ HostEvent.keyDown 15 = .keyUp k ∨ HostEvent.keyDown 15 = .onKeyPress k → k ≤ 15 :=
  ⟨by decide, rfl, by decide, fun k h => by simp only [reduceCtorEq, or_false, HostEvent.keyDown.injEq] at h; omega⟩
theorem witness_TickEndUpdatesTimersToneAndFrame :
    ({ halted [] with batch := some 3 } : State).batch = some 3 ∧ ({ halted [] with batch := some 3 } : State).fault ≠ none ∧
    ({ State.reset with batch := some 0 } : State).batch = some 0 ∧ State.reset.fault = none ∧ State.reset.paused = false ∧
    ({ waiting [] with batch := some 3 } : State).paused = true ∧ (waiting []).fault = none :=
  ⟨rfl, by decide, rfl, rfl, rfl, rfl, rfl⟩
theorem witness_StepsRunTheWholeTick : State.reset.batch = none ∧
    ({ State.reset with inputs := [.tick 0] } : State).inputs = .tick 0 :: [] := ⟨rfl, rfl⟩
theorem witness_PausedTickOnlySignals : (waiting [.tick 10]).batch = none ∧ (waiting [.tick 10]).fault = none ∧
    (waiting [.tick 10]).paused = true ∧ (waiting [.tick 10]).inputs = .tick 10 :: [] := ⟨rfl, rfl, rfl, rfl⟩
theorem witness_HaltedCoreIgnoresTicks : (halted [.tick 10]).fault ≠ none ∧ (halted [.tick 10]).batch = none ∧
    (halted [.tick 10]).inputs = .tick 10 :: [] ∧ (halted []).inputs = [] := ⟨by decide, rfl, rfl, rfl⟩
/-- A step of a running tick, of the core on zeroed memory (V8). -/
theorem witness_BatchSeesConstantKeysAndTimers : (running State.reset).batch = some 1 ∧
    step (running State.reset) = .next { State.reset with pc := 0x202, batch := some 0 } := ⟨rfl, rfl⟩
/-- A used core with other parameters than the default ones, to be constructed again. -/
def usedCore : State :=
  { storeBytes (regs [(1, 7)] undefinedFault) 0x300 [0xAA] with
      pc := 0x246, i := 0x300, dt := 9, tone := true, stack := [0x202], inputs := [.construct], randDraws := 4 }
theorem witness_ConstructionResetsTheCore : usedCore.batch = none ∧ usedCore.inputs = .construct :: [] ∧
    usedCore.params ≠ State.reset.params := ⟨rfl, rfl, by decide⟩
theorem witness_LoadFontWritesTheTable : State.reset.batch = none ∧
    ({ State.reset with inputs := [.loadFont] } : State).inputs = .loadFont :: [] := ⟨rfl, rfl⟩
/-- V99 and V100: the longest program that is copied, and the shortest that is rejected. -/
theorem witness_LoadProgramCopiesOrRejects : State.reset.batch = none ∧ (List.replicate 3584 (0 : Byte)).length ≤ 3584 ∧
    3584 < (List.replicate 3585 (0 : Byte)).length ∧
    ({ State.reset with inputs := [.loadProgram [0x12, 0x00]] } : State).inputs = .loadProgram [0x12, 0x00] :: [] :=
  ⟨rfl, Nat.le_of_eq List.length_replicate, by rw [List.length_replicate]; decide, rfl⟩
theorem witness_HostReadsAreReadOnly : State.reset.batch = none ∧ 63 < 64 ∧ 31 < 32 ∧
    ({ State.reset with inputs := [.readDisplay] } : State).inputs = .readDisplay :: [] ∧
    ({ State.reset with inputs := [.readTone] } : State).inputs = .readTone :: [] ∧
    ({ State.reset with inputs := [.readFault] } : State).inputs = .readFault :: [] :=
  ⟨rfl, by decide, by decide, rfl, rfl, rfl⟩
/-- V22: an instruction whose next state differs in a register. -/
theorem witness_OnlyTheListedInstructionsWrite : exec (.ldImm 1 0xC3) State.reset = .next (regs [(1, 0xC3)]) ∧
    readV (regs [(1, 0xC3)]) 1 ≠ readV State.reset 1 := ⟨rfl, by decide⟩
/-- The same for memory (V62, V0 alone), pc (V1) and the latch (V3): each clause has a state that changes its element. -/
theorem witness_OnlyTheListedInstructionsWrite_more :
    exec (.stRegs 0) { regs [(0, 0x10)] with i := 0x300 } =
      .next (memWrite { regs [(0, 0x10)] with i := 0x300 } 0x300 0x10) ∧
    (memWrite { regs [(0, 0x10)] with i := 0x300 } 0x300 0x10).mem ≠ (regs [(0, 0x10)]).mem ∧
    exec (.jp 0xABC) State.reset = .next { State.reset with pc := 0xABC } ∧
    ({ State.reset with pc := 0xABC } : State).pc ≠ State.reset.pc ∧
    exec .ret { State.reset with pc := 0x202 } = .next { halted [] with pc := 0x202 } ∧
    (halted []).fault ≠ State.reset.fault := ⟨rfl, by decide, rfl, by decide, rfl, by decide⟩
theorem witness_OnlyTwoInstructionsWriteMemory : exec (.ldImm 1 0xC3) State.reset = .next (regs [(1, 0xC3)]) ∧
    (∀ x, Instr.ldImm 1 0xC3 ≠ .ldB x) ∧ ∀ x, Instr.ldImm 1 0xC3 ≠ .stRegs x := ⟨rfl, by simp, by simp⟩
/-- V1. -/
theorem witness_OnlyControlFlowMovesPc : exec (.jp 0xABC) State.reset = .next { State.reset with pc := 0xABC } ∧
    ({ State.reset with pc := 0xABC } : State).pc ≠ State.reset.pc := ⟨rfl, by decide⟩
/-- V3, after the step's advance. -/
theorem witness_FaultsArePrecise : exec .ret { State.reset with pc := 0x202 } = .next { halted [] with pc := 0x202 } ∧
    (halted []).fault ≠ State.reset.fault := ⟨rfl, by decide⟩
theorem witness_FaultCauses : exec .ret { State.reset with pc := 0x202 } = .next { halted [] with pc := 0x202 } ∧
    State.reset.fault = none ∧
    (halted []).fault = some { code := .stackUnderflow, pc := 0x200, opcode := some 0x00EE, info := .none } := ⟨rfl, rfl, rfl⟩
/-- V4, V61 and V78: the other three codes, each from a state with nothing latched. -/
theorem witness_FaultCauses_others :
    exec (.call 0x200) { State.reset with pc := 0x202, stack := List.replicate 16 0x202 } =
      .next (raised { State.reset with pc := 0x202, stack := List.replicate 16 0x202 } .stackOverflow 0x2200 .none) ∧
    exec (.ldB 0) { addrFault with i := 0xFFE } =
      .next (raised { addrFault with i := 0xFFE } .addressOutOfRange 0xF033 (.address 0x1000)) ∧
    exec (.drw 1 2 1) (sprite [0x80] 0x80 0) =
      .next (raised (sprite [0x80] 0x80 0) .coordinateOutOfContract 0xD121 (.coords 128 0)) ∧
    addrFault.fault = none ∧ (sprite [0x80] 0x80 0).fault = none := ⟨rfl, rfl, rfl, rfl, rfl⟩
/-- A halted core between ticks, under a tick and under a construction. -/
theorem witness_FaultLatchIsSticky : (halted [.tick 10]).fault ≠ none ∧ step (halted [.tick 10]) = .next (halted []) ∧
    (halted [.construct]).batch = none ∧ (halted [.construct]).inputs = .construct :: [] ∧
    step (halted [.construct]) = .next { State.reset with outputs := [.constructed] } := ⟨by decide, rfl, rfl, rfl, rfl⟩
theorem witness_ParametersNeverChange : step (running State.reset) = .next { State.reset with pc := 0x202, batch := some 0 } := rfl

/-- The invariant inside a tick, at the start of its last turn. -/
theorem witness_StepKeepsTheInvariant : (running State.reset).Inv ∧
    step (running State.reset) = .next { State.reset with pc := 0x202, batch := some 0 } :=
  ⟨⟨by decide, by decide, by decide, by decide, by decide, by decide⟩, rfl⟩

end Sys2Proof.Tests
end

section
/-! PROOFS. The family of 10_state.md: what every step keeps of the state (the invariant, the parameters), which instructions
write which element of it, and its values right after construction. -/

namespace Sys2Proof.Machine

/-! ### What a step can do (R103, R114) -/

/-- Everything a turn of a tick can do (R103): a halted core only ends the tick, a paused one or a loop with no turn left goes
to the tick's end, and any other core takes one step. -/
theorem tickTurn_cases {n : Nat} {s t : State} (h : tickTurn n s = .next t) :
    (s.fault ≠ none ∧ t = { s with batch := none }) ∨
    (s.fault = none ∧ (s.paused = true ∨ n = 0) ∧ t = finishTick { s with batch := none }) ∨
    (s.fault = none ∧ s.paused = false ∧ ∃ m, n = m + 1 ∧ cpuStep { s with batch := some m } = .next t) := by
  by_cases hf : s.fault = none
  · by_cases he : s.paused = true ∨ n = 0
    · rw [tickTurn_end hf he] at h; cases h; exact .inr (.inl ⟨hf, he, rfl⟩)
    · obtain ⟨hp, hn⟩ := not_or.1 he
      obtain ⟨m, rfl⟩ := Nat.exists_eq_succ_of_ne_zero hn
      have hp := Bool.eq_false_iff.2 hp
      rw [tickTurn_run hf hp] at h
      exact .inr (.inr ⟨hf, hp, m, rfl, h⟩)
  · rw [tickTurn_halted n hf] at h; cases h; exact .inl ⟨hf, rfl⟩

/-- What each interaction of the host makes of a state between ticks (R114). -/
inductive HostEffect (s : State) : HostEvent → State → Prop
  | construct : HostEffect s .construct (constructAgain s)
  | loadFont : HostEffect s .loadFont (loadFont s)
  | loadProgram (bytes : List Byte) : HostEffect s (.loadProgram bytes) (loadProgram bytes s)
  | tick (cpt : Nat) : HostEffect s (.tick cpt) (beginTick cpt s)
  | keyDown (k : Fin 16) : HostEffect s (.keyDown k) (setKey k true s)
  | keyUp (k : Fin 16) : HostEffect s (.keyUp k) (setKey k false s)
  | onKeyPress (k : Fin 16) : HostEffect s (.onKeyPress k) (onKeyPress k s)
  | readDisplay : HostEffect s .readDisplay (reply (.display (render s)) s)
  | readTone : HostEffect s .readTone (reply (.tone s.tone) s)
  | readFault : HostEffect s .readFault (reply (.fault s.fault) s)

/-- A key event that is answered names a key in range and acts on it (R115). -/
theorem keyEvent_next {k : Nat} {act : Fin 16 → State → State} {s t : State} (h : keyEvent k act s = .next t) :
    ∃ j : Fin 16, j.val = k ∧ t = act j s := by
  unfold keyEvent at h
  split at h
  · rename_i hk; cases h; exact ⟨⟨k, hk⟩, rfl, rfl⟩
  · cases h

/-- A host event that is answered comes between ticks and has its effect (R114, R115). -/
theorem hostEvent_next {e : HostEvent} {s t : State} (h : hostEvent e s = .next t) : s.batch = none ∧ HostEffect s e t := by
  unfold hostEvent at h
  split at h
  · cases h
  · rename_i hb
    refine ⟨by simpa using hb, ?_⟩
    cases e with
    | keyDown k => obtain ⟨j, rfl, rfl⟩ := keyEvent_next h; exact .keyDown j
    | keyUp k => obtain ⟨j, rfl, rfl⟩ := keyEvent_next h; exact .keyUp j
    | onKeyPress k => obtain ⟨j, rfl, rfl⟩ := keyEvent_next h; exact .onKeyPress j
    | _ => cases h; constructor

/-- The end of a tick writes the timers, the tone and the host's record, and nothing else (R103 to R106). -/
theorem finishTick_only (s : State) :
    finishTick s = { s with
      dt := (finishTick s).dt, st := (finishTick s).st, tone := (finishTick s).tone, outputs := (finishTick s).outputs } := by
  unfold finishTick; split <;> rfl

/-- The start of a tick writes the batch position and nothing else (R103). -/
theorem beginTick_only (cpt : Nat) (s : State) : beginTick cpt s = { s with batch := (beginTick cpt s).batch } := by
  unfold beginTick; split <;> rfl

/-- loadProgram writes memory and the host's record, and nothing else (R122). -/
theorem loadProgram_only (bytes : List Byte) (s : State) :
    loadProgram bytes s = { s with mem := (loadProgram bytes s).mem, outputs := (loadProgram bytes s).outputs } := by
  unfold loadProgram; split <;> rfl

/-! ### No step writes a parameter (R28) -/

theorem exec_params {i : Instr} {s t : State} (h : exec i s = .next t) : t.params = s.params := by
  rcases exec_cases h with ⟨code, info, -, rfl⟩ | eff
  · rfl
  · exact eff.params

theorem cpuStep_params {s t : State} (h : cpuStep s = .next t) : t.params = s.params := by
  rcases cpuStep_cases h with ⟨a, -, -, rfl⟩ | ⟨i, -, hx⟩ | ⟨-, rfl | rfl⟩
  · rfl
  · exact (exec_params hx).trans (advance_params s)
  · rfl
  · rfl

theorem tickTurn_params {n : Nat} {s t : State} (h : tickTurn n s = .next t) : t.params = s.params := by
  rcases tickTurn_cases h with ⟨-, rfl⟩ | ⟨-, -, rfl⟩ | ⟨-, -, m, -, hc⟩
  · rfl
  · rw [finishTick_only]
  · exact cpuStep_params (s := { s with batch := some m }) hc

theorem onKeyPress_params (k : Fin 16) (s : State) : (onKeyPress k s).params = s.params := by
  unfold onKeyPress; split <;> rfl

theorem HostEffect.params {e : HostEvent} {s t : State} (h : HostEffect s e t) : t.params = s.params := by
  cases h with
  | loadProgram bytes => rw [loadProgram_only]
  | tick cpt => rw [beginTick_only]
  | onKeyPress k => exact onKeyPress_params k s
  | _ => rfl

/-- Settles O58: a step is a turn of the running tick or a host event, and neither writes a parameter. -/
theorem parametersNeverChange : Obligations.ParametersNeverChange := by
  intro s t h
  cases hb : s.batch with
  | some n => rw [step_inTick hb] at h; exact tickTurn_params h
  | none =>
    obtain ⟨e, rest, -, he⟩ := step_between_cases hb h
    exact (hostEvent_next he).2.params

/-! ### The invariant, operation by operation (R13, R18, R23, R96) -/

/-- A record that an instruction raises is one that R96 allows. -/
theorem Raises.record_ok {s : State} {i : Instr} {code : FaultCode} {info : FaultInfo} (h : Raises s i code info) (p : Word) :
    FaultRecord.ok { code := code, pc := p, opcode := some (encode i), info := info } = true := by
  cases h with
  | underflow => rfl
  | overflow nnn => simp [FaultRecord.ok, encode]
  | pixel x y n r c _ _ _ _ hout =>
    have hfar : 128 ≤ (readV s x).toNat + c ∨ 64 ≤ (readV s y).toNat + r := by unfold BitInContract at hout; omega
    simp [FaultRecord.ok, encode]; omega
  | address _ count _ hi =>
    have ha : 0xFFF < max (baseI s) 4096 := by omega
    rcases hi with ⟨x, rfl, -⟩ | ⟨x, rfl | rfl, -⟩ | ⟨x, y, n, rfl, -⟩ <;> simp [FaultRecord.ok, encode, ha]

/-- Latching an allowed record in an unpaused core keeps the invariant (R97). -/
theorem State.Inv.latch {s : State} {r : FaultRecord} (hs : s.Inv) (hp : s.paused = false) (hr : r.ok = true) :
    ({ s with fault := some r } : State).Inv :=
  { hs with record := hr, notPaused := fun _ => hp }

/-- An instruction that raises nothing keeps the invariant of a core that is not halted. -/
theorem Effect.inv {i : Instr} {s t : State} (eff : Effect i s t) (hs : s.Inv) (hf : s.fault = none) : t.Inv where
  mem := by
    rcases eff.mem with e | ⟨-, a, l, e⟩
    · rw [e]; exact hs.mem
    · rw [e]; exact memWf_storeBytes a l hs.mem
  wait := by
    rcases eff.wait with ⟨ep, ew⟩ | ⟨x, -, ep, ew⟩
    · rw [ep, ew]; exact hs.wait
    · rw [ep, ew]; rfl
  capacity := by rw [eff.params]; exact hs.capacity
  depth := by
    have hd := hs.depth
    rw [eff.params]
    rcases eff.stack with e | ⟨-, hroom, e⟩ | ⟨-, w, e⟩
    · rw [e]; exact hd
    · rw [e, List.length_append, List.length_singleton]; omega
    · rw [e, List.length_append] at hd; omega
  record := by rw [eff.fault]; exact hs.record
  notPaused := by rw [eff.fault, hf]; exact fun h => absurd h (by decide)

theorem exec_inv {i : Instr} {s t : State} (hs : s.Inv) (hp : s.paused = false) (hf : s.fault = none)
    (h : exec i s = .next t) : t.Inv := by
  rcases exec_cases h with ⟨code, info, hr, rfl⟩ | eff
  · exact hs.latch hp (hr.record_ok _)
  · exact eff.inv hs hf

theorem advance_inv {s : State} (hs : s.Inv) : (advance s).Inv := { hs with }

/-- A step of an unpaused core that is not halted keeps the invariant (R51). -/
theorem cpuStep_inv {s t : State} (hs : s.Inv) (hp : s.paused = false) (hf : s.fault = none) (h : cpuStep s = .next t) :
    t.Inv := by
  rcases cpuStep_cases h with ⟨a, -, ha, rfl⟩ | ⟨i, -, hx⟩ | ⟨hd, rfl | rfl⟩
  · exact hs.latch hp (decide_eq_true ha)
  · exact exec_inv (advance_inv hs) hp hf hx
  · exact advance_inv hs
  · exact (advance_inv hs).latch hp (by simp [FaultRecord.ok, hd])

theorem tickTurn_inv {n : Nat} {s t : State} (hs : s.Inv) (h : tickTurn n s = .next t) : t.Inv := by
  rcases tickTurn_cases h with ⟨-, rfl⟩ | ⟨-, -, rfl⟩ | ⟨hf, hp, m, -, hc⟩
  · exact { hs with }
  · rw [finishTick_only]; exact { hs with }
  · exact cpuStep_inv (s := { s with batch := some m }) { hs with } hp hf hc

/-- A construction with a positive stack capacity meets the invariant (R29, R54). -/
theorem inv_construct {p : Params} (hp : 0 < p.stackCapacity) : (State.construct p).Inv where
  mem := rfl
  wait := rfl
  capacity := hp
  depth := Nat.zero_le _
  record := rfl
  notPaused := fun _ => rfl

/-- The font fits below MEM_SIZE, so loading it keeps memory canonical (R121). -/
theorem memWf_loadFont {s : State} (h : memWf s.mem = true) : memWf (loadFont s).mem = true :=
  memWf_loadBytes 0 _ (by simp [memSize]) h

/-- A program that is copied fits below MEM_SIZE, so loading it keeps memory canonical (R122). -/
theorem memWf_loadProgram {s : State} (bytes : List Byte) (h : memWf s.mem = true) :
    memWf (loadProgram bytes s).mem = true := by
  unfold loadProgram
  split
  · exact h
  · rename_i hfit
    exact memWf_loadBytes _ _ (by simp only [maxProgram, programBase, memSize] at *; omega) h

/-- A key press ends the wait and the pause together (R113). -/
theorem onKeyPress_inv {s : State} (k : Fin 16) (hs : s.Inv) : (onKeyPress k s).Inv := by
  unfold onKeyPress
  split
  · exact { hs with wait := rfl, notPaused := fun _ => rfl }
  · exact hs

theorem HostEffect.inv {e : HostEvent} {s t : State} (h : HostEffect s e t) (hs : s.Inv) : t.Inv := by
  cases h with
  | construct => exact { inv_construct hs.capacity with }
  | loadFont => exact { hs with mem := memWf_loadFont hs.mem }
  | loadProgram bytes => rw [loadProgram_only]; exact { hs with mem := memWf_loadProgram bytes hs.mem }
  | tick cpt => rw [beginTick_only]; exact { hs with }
  | onKeyPress k => exact onKeyPress_inv k hs
  | keyDown | keyUp | readDisplay | readTone | readFault => exact { hs with }

/-- Settles O60: a turn of the running tick and a host event each keep the invariant. -/
theorem stepKeepsTheInvariant : Obligations.StepKeepsTheInvariant := by
  intro s t hs h
  cases hb : s.batch with
  | some n => rw [step_inTick hb] at h; exact tickTurn_inv hs h
  | none =>
    obtain ⟨e, rest, -, he⟩ := step_between_cases hb h
    exact (hostEvent_next he).2.inv { hs with }

/-- Settles O59: the default stack capacity is positive. -/
theorem invariantAtReset : Obligations.InvariantAtReset := inv_construct (by decide)

/-- Settles O46: each element of the state after construction is a constant, and no cell of its memory is listed. -/
theorem resetValues : Obligations.ResetValues := by
  refine ⟨fun a => rfl, fun x => ?_, rfl, rfl, rfl, rfl, rfl, fun c h => ?_, fun k h => ?_, rfl, rfl, rfl, rfl⟩
  · exact Vector.getElem_replicate x.isLt
  · exact Vector.getElem_replicate h
  · exact Vector.getElem_replicate h

/-! ### Which instructions write which element (R14, R66, R67, R85, R96) -/

theorem readV_sumThenFlag_other {x y r : Nibble} (s : State) (hx : r ≠ x) (hf : r ≠ vf) :
    readV (sumThenFlag x y s) r = readV s r := by
  rw [readV_sumThenFlag]
  cases s.params.vfAliasOrder <;> simp only [if_neg hx, if_neg hf]

theorem readV_flagAndResult_other {x y r : Nibble} (f g : Byte → Byte → Byte) (s : State) (hx : r ≠ x) (hf : r ≠ vf) :
    readV (flagAndResult f g x y s) r = readV s r := by
  rw [readV_flagAndResult]
  cases s.params.vfAliasOrder <;> simp only [if_neg hx, if_neg hf]

/-- Fx65 leaves the registers above Vx as they were (R85). -/
theorem readV_loadRegs_other {x r : Nibble} (s : State) (a : Nat) (h : ¬ r ≤ x) :
    readV (writeRegs s 0 (readBytes s a (regCount x))) r = readV s r := by
  have hx := x.isLt
  have hr : x.toNat < r.toNat := by rw [BitVec.le_def] at h; omega
  rw [readV_writeRegs _ _ _ (by rw [length_readBytes, regCount]; omega), dif_neg]
  rw [length_readBytes, regCount]; omega

/-- The instructions that write V[r] (R14, R67, R79, R85, R86, R90). -/
def WritesRegister (i : Instr) (r : Nibble) : Prop :=
  (∃ x kk, i = .ldImm x kk ∧ r = x) ∨ (∃ x kk, i = .addImm x kk ∧ r = x) ∨
  (∃ x y, (i = .ldReg x y ∨ i = .or x y ∨ i = .and x y ∨ i = .xor x y) ∧ r = x) ∨
  (∃ x kk, i = .rnd x kk ∧ r = x) ∨ (∃ x, i = .ldDtRead x ∧ r = x) ∨
  (∃ x y, (i = .addReg x y ∨ i = .sub x y ∨ i = .shr x y ∨ i = .subn x y ∨ i = .shl x y) ∧ (r = x ∨ r = 15)) ∨
  (∃ x y n, i = .drw x y n ∧ r = 15) ∨ (∃ x, i = .ldRegs x ∧ r ≤ x)

/-- A register that an instruction changed is one it writes. -/
theorem Effect.writesRegister {i : Instr} {s t : State} (eff : Effect i s t) {r : Nibble} (hr : readV t r ≠ readV s r) :
    WritesRegister i r := by
  have single {x : Nibble} {b : Byte} (e : t.v = (writeV s x b).v) : r = x := by
    by_contra hx; exact hr (by rw [readV_congr e, readV_writeV, if_neg hx])
  rcases eff.v with e | ⟨x, kk, b, hi, e⟩ | ⟨x, y, b, hi, e⟩ | ⟨x, b, hi, e⟩ | ⟨x, y, hi, e⟩ | ⟨x, y, f, g, hi, e⟩ |
    ⟨x, y, n, b, hi, e⟩ | ⟨x, hi, e⟩
  · exact absurd (readV_congr e r) hr
  · rcases hi with hi | hi | hi
    · exact .inl ⟨x, kk, hi, single e⟩
    · exact .inr (.inl ⟨x, kk, hi, single e⟩)
    · exact .inr (.inr (.inr (.inl ⟨x, kk, hi, single e⟩)))
  · exact .inr (.inr (.inl ⟨x, y, hi, single e⟩))
  · exact .inr (.inr (.inr (.inr (.inl ⟨x, hi, single e⟩))))
  · refine .inr (.inr (.inr (.inr (.inr (.inl ⟨x, y, .inl hi, ?_⟩)))))
    by_contra hn; obtain ⟨hx, hf⟩ := not_or.1 hn
    exact hr (by rw [readV_congr e, readV_sumThenFlag_other s hx hf])
  · refine .inr (.inr (.inr (.inr (.inr (.inl ⟨x, y, .inr hi, ?_⟩)))))
    by_contra hn; obtain ⟨hx, hf⟩ := not_or.1 hn
    exact hr (by rw [readV_congr e, readV_flagAndResult_other f g s hx hf])
  · exact .inr (.inr (.inr (.inr (.inr (.inr (.inl ⟨x, y, n, hi, single e⟩))))))
  · refine .inr (.inr (.inr (.inr (.inr (.inr (.inr ⟨x, hi, ?_⟩))))))
    by_contra hx; exact hr (by rw [readV_congr e, readV_loadRegs_other s _ hx])

/-- Only a return, a call, an access at I and Dxyn raise (R96). -/
theorem Raises.raisers {s : State} {i : Instr} {code : FaultCode} {info : FaultInfo} (h : Raises s i code info) :
    i = .ret ∨ (∃ nnn, i = .call nnn) ∨ (∃ x, i = .ldB x ∨ i = .stRegs x ∨ i = .ldRegs x) ∨ ∃ x y n, i = .drw x y n := by
  cases h with
  | underflow => exact .inl rfl
  | overflow nnn => exact .inr (.inl ⟨nnn, rfl⟩)
  | pixel x y n => exact .inr (.inr (.inr ⟨x, y, n, rfl⟩))
  | address _ count _ hi =>
    rcases hi with ⟨x, hi, -⟩ | ⟨x, hi, -⟩ | ⟨x, y, n, hi, -⟩
    · exact .inr (.inr (.inl ⟨x, .inl hi⟩))
    · exact .inr (.inr (.inl ⟨x, .inr hi⟩))
    · exact .inr (.inr (.inr ⟨x, y, n, hi⟩))

/-- Only Fx0A pauses the core and sets the register that waits (R22, R23, R94). -/
theorem Effect.startsWait {i : Instr} {s t : State} (eff : Effect i s t)
    (hw : t.paused ≠ s.paused ∨ t.waitReg ≠ s.waitReg) : ∃ x, i = .ldK x := by
  rcases eff.wait with ⟨ep, ew⟩ | ⟨x, hi, -⟩
  · exact hw.elim (absurd ep) (absurd ew)
  · exact ⟨x, hi⟩

/-- Settles O52: an instruction that raises changes the latch alone; the effect of any other names, element by element, the
instructions that write it. -/
theorem onlyTheListedInstructionsWrite : Obligations.OnlyTheListedInstructionsWrite := by
  intro i s t h
  rcases exec_cases h with ⟨code, info, hr, rfl⟩ | eff
  · refine ⟨fun _ => absurd rfl, absurd rfl, absurd rfl, fun _ => hr.raisers, absurd rfl, absurd rfl, absurd rfl,
      absurd rfl, absurd rfl, fun hw => hw.elim (absurd rfl) (absurd rfl), ?_⟩
    exact ⟨rfl, rfl, rfl, rfl, rfl, rfl, absurd rfl, absurd rfl⟩
  · refine ⟨fun r => eff.writesRegister, fun hm => (eff.mem.resolve_left hm).1, eff.pc.resolve_left, absurd eff.fault,
      eff.index.resolve_left, fun hst => (eff.stack.resolve_left hst).imp And.left And.left, eff.dt.resolve_left,
      eff.st.resolve_left, eff.disp.resolve_left, eff.startsWait, ?_⟩
    exact ⟨eff.keys, eff.tone, eff.params, eff.batch, eff.inputs, eff.outputs, eff.rand.resolve_left, eff.key.resolve_left⟩

end Sys2Proof.Machine
end

section
/-! PROOFS. The family of 20_memory.md: the address check, the fetch, and what MemWrite and the instructions do to memory. -/

namespace Sys2Proof.Machine

/-! ### The address check (R31, R39) -/

/-- Settles O10: the check answers none exactly on the runs that are all right; on any other run it answers the first address
above 0xFFF, which lies in the run. -/
theorem addressCheckFindsTheFirstBadOne : Obligations.AddressCheckFindsTheFirstBadOne := by
  intro s base n
  refine ⟨firstBadAddr_eq_none.2, fun hbad => ?_⟩
  have hfirst := firstBadAddr_of_not_addrsOk hbad
  obtain ⟨-, hend, hn, -⟩ := firstBadAddr_some.1 hfirst
  exact ⟨hfirst, le_max_left _ _, max_lt (by omega) hend⟩

/-! ### MemWrite and MemRead (R32, R33, R38) -/

/-- MemRead of the cell just written (R32, R33). -/
@[simp] theorem memRead_memWrite_same (s : State) (a : Nat) (b : Byte) : memRead (memWrite s a b) a = b := by
  rw [memRead_memWrite, if_pos rfl]

/-- Settles O9: MemWrite is one cell write, at the remainder of its address. -/
theorem memWriteChangesOneCell : Obligations.MemWriteChangesOneCell := fun s a b =>
  ⟨rfl, fun c => cellRead_cellWrite s.mem (a % 4096) c b, memRead_memWrite_same s a b⟩

/-- Settles O53: an instruction that raises changes the latch alone, and the effect of any other lists Fx33 and Fx55 as the
only ones that write memory. -/
theorem onlyTwoInstructionsWriteMemory : Obligations.OnlyTwoInstructionsWriteMemory := by
  intro i s t h hldB hstRegs a
  rcases exec_cases h with ⟨code, info, -, rfl⟩ | eff
  · rfl
  · rcases eff.mem with e | ⟨⟨x, hi | hi⟩, -⟩
    · rw [e]
    · exact absurd hi (hldB x)
    · exact absurd hi (hstRegs x)

/-! ### The fetch (R35, R36, R43, R51) -/

/-- Settles O8: the two cells of the fetch, laid out as the number of the word. -/
theorem fetchIsBigEndian : Obligations.FetchIsBigEndian := fun _ => toNat_wordOfBytes _ _

/-- Two addresses one after the other reach different cells, also across the edge from 0xFFF to 0x000 (R31). -/
theorem cellOf_ne_cellOf_succ (a : Nat) : cellOf a ≠ cellOf (a + 1) := by
  unfold cellOf memSize; omega

/-- Settles O11: the second write goes to another cell than the first, so both bytes are read back. -/
theorem storedBytesAreFetched : Obligations.StoredBytesAreFetched := by
  intro s hi lo
  have hkept : memRead (memWrite (memWrite s s.pc.toNat hi) (s.pc.toNat + 1) lo) s.pc.toNat = hi := by
    rw [memRead_memWrite, if_neg (cellOf_ne_cellOf_succ _), memRead_memWrite_same]
  simp only [fetchWord, memWrite_pc, hkept, memRead_memWrite_same]

/-- Settles O7: the run of the two fetch addresses is not all right, so the step is a fetch fault. -/
theorem fetchFaultLeavesPc : Obligations.FetchFaultLeavesPc := by
  intro s n hr hp hpc
  have hbad : ¬ AddrsOk { s with batch := some n } s.pc.toNat 2 := by
    unfold AddrsOk
    rintro (hw | h0 | hle)
    · exact absurd (hw.symm.trans hp) (by decide)
    · exact absurd h0 (by decide)
    · omega
  rw [step_runs hr]
  exact cpuStep_fetchFault hbad

end Sys2Proof.Machine
end

section
/-! PROOFS. The family of 30_encoding.md: the opcode map of R48 and the encoder of R45 against each other and by arithmetic,
and the step that runs the decoded word (R49, R51). -/

namespace Sys2Proof

/-! ### The word laid out from its own fields (R45, R46) -/

theorem wordNNN_fields {w : Word} {t : Nibble} (ht : (fieldT w).toNat = t.toNat) : wordNNN t (fieldNNN w) = w := by
  apply BitVec.eq_of_toNat_eq
  rw [toNat_wordNNN, ← ht, toNat_fieldT, toNat_fieldNNN]; omega

theorem wordXKK_fields {w : Word} {t : Nibble} {kk : Byte} (ht : (fieldT w).toNat = t.toNat) (hk : fieldKK w = kk) :
    wordXKK t (fieldX w) kk = w := by
  apply BitVec.eq_of_toNat_eq
  rw [toNat_wordXKK, ← ht, ← hk, toNat_fieldT, toNat_fieldX, toNat_fieldKK]; omega

theorem wordXYN_fields {w : Word} {t n : Nibble} (ht : (fieldT w).toNat = t.toNat) (hn : (fieldN w).toNat = n.toNat) :
    wordXYN t (fieldX w) (fieldY w) n = w := by
  apply BitVec.eq_of_toNat_eq
  rw [toNat_wordXYN, ← ht, ← hn, toNat_fieldT, toNat_fieldX, toNat_fieldY, toNat_fieldN]; omega

/-! ### Decoding an encoded instruction (R44, R45, R48) -/

/-- A well-formed `sys` has neither of the two words that the map tests first (R48, R57). -/
theorem decodeFamily0_sys {nnn : Addr12} (h : (Instr.sys nnn).wf = true) : decodeFamily0 (wordNNN 0 nnn) = .sys nnn := by
  obtain ⟨hcls, hret⟩ : nnn ≠ 0x0E0 ∧ nnn ≠ 0x0EE := by simpa [Instr.wf] using h
  have hcls : wordNNN 0 nnn ≠ 0x00E0 := fun e => hcls (by rw [← fieldNNN_wordNNN 0 nnn, e]; rfl)
  have hret : wordNNN 0 nnn ≠ 0x00EE := fun e => hret (by rw [← fieldNNN_wordNNN 0 nnn, e]; rfl)
  rw [decodeFamily0, if_neg hcls, if_neg hret, fieldNNN_wordNNN]

/-- The opcode map reads back every instruction it has a row for: the fields of the word laid out are the operands. -/
theorem decodeWord_encode {i : Instr} (h : i.wf = true) : decodeWord (encode i) = .ok i := by
  cases i with
  | cls | ret => rfl
  | sys nnn => simpa [encode, decodeWord] using decodeFamily0_sys h
  | jp | call | ldI | jpV0 => simp [encode, decodeWord]
  | seImm | sneImm | ldImm | addImm | rnd => simp [encode, decodeWord]
  | seReg | sneReg | drw => simp [encode, decodeWord]
  | ldReg | or | and | xor | addReg | sub | shr | subn | shl => simp [encode, decodeWord, decodeFamily8]
  | skp | sknp => simp [encode, decodeWord, decodeFamilyE]
  | ldDtRead | ldK | ldDtWrite | ldSt | addI | ldF | ldB | stRegs | ldRegs => simp [encode, decodeWord, decodeFamilyF]

/-- Settles O1: the two bytes in memory order make the word of the instruction again, and the map reads it back. -/
theorem decodeOfEncodeIsTheInstruction : Obligations.DecodeOfEncodeIsTheInstruction := by
  intro i rest h
  simp only [encodeBytes, List.cons_append, List.nil_append, decode, wordOfBytes_high_low, decodeWord_encode h]

/-! ### Encoding a decoded word (R45, R48) -/

theorem encode_decodeFamily0 {w : Word} (ht : (fieldT w).toNat = 0x0) :
    encode (decodeFamily0 w) = w ∧ (decodeFamily0 w).wf = true := by
  unfold decodeFamily0
  split_ifs with hcls hret
  · exact ⟨hcls.symm, rfl⟩
  · exact ⟨hret.symm, rfl⟩
  · have hw : wordNNN 0 (fieldNNN w) = w := wordNNN_fields ht
    refine ⟨hw, ?_⟩
    simp only [Instr.wf, Bool.and_eq_true, bne_iff_ne]
    exact ⟨fun e => hcls (by rw [← hw, e]; rfl), fun e => hret (by rw [← hw, e]; rfl)⟩

theorem encode_of_decodeFamily8 {w : Word} {i : Instr} (ht : (fieldT w).toNat = 0x8) (h : decodeFamily8 w = .ok i) :
    encode i = w ∧ i.wf = true := by
  unfold decodeFamily8 at h
  split at h <;> cases h
  all_goals exact ⟨wordXYN_fields ht ‹_›, rfl⟩

theorem encode_of_decodeFamilyE {w : Word} {i : Instr} (ht : (fieldT w).toNat = 0xE) (h : decodeFamilyE w = .ok i) :
    encode i = w ∧ i.wf = true := by
  unfold decodeFamilyE at h; dsimp only at h
  split_ifs at h <;> cases h
  all_goals exact ⟨wordXKK_fields ht ‹_›, rfl⟩

theorem encode_of_decodeFamilyF {w : Word} {i : Instr} (ht : (fieldT w).toNat = 0xF) (h : decodeFamilyF w = .ok i) :
    encode i = w ∧ i.wf = true := by
  unfold decodeFamilyF at h; dsimp only at h
  split_ifs at h <;> cases h
  all_goals exact ⟨wordXKK_fields ht ‹_›, rfl⟩

/-- Settles O2: in each family of the map the operands are fields of the word, so laying them out gives the word again. -/
theorem encodeOfDecodeIsTheWord : Obligations.EncodeOfDecodeIsTheWord := by
  intro w i h
  unfold decodeWord at h
  match ht : (fieldT w).toNat, (fieldT w).isLt, h with
  | 0x0, _, h => cases h; exact encode_decodeFamily0 ht
  | 0x1, _, h | 0x2, _, h | 0xA, _, h | 0xB, _, h => cases h; exact ⟨wordNNN_fields ht, rfl⟩
  | 0x3, _, h | 0x4, _, h | 0x6, _, h | 0x7, _, h | 0xC, _, h => cases h; exact ⟨wordXKK_fields ht rfl, rfl⟩
  | 0x5, _, h | 0x9, _, h =>
    dsimp only at h
    split_ifs at h with hn; cases h
    exact ⟨wordXYN_fields ht (congrArg BitVec.toNat hn), rfl⟩
  | 0x8, _, h => exact encode_of_decodeFamily8 ht h
  | 0xD, _, h => cases h; exact ⟨wordXYN_fields ht rfl, rfl⟩
  | 0xE, _, h => exact encode_of_decodeFamilyE ht h
  | 0xF, _, h => exact encode_of_decodeFamilyF ht h
  | _ + 16, hlt, _ => omega

/-! ### The opcode map by the number of the word (R48, R49) -/

theorem fieldX_eq_ofNat (w : Word) : fieldX w = BitVec.ofNat 4 (w.toNat / 256) :=
  BitVec.eq_of_toNat_eq (toNat_fieldX w)

theorem fieldY_eq_ofNat (w : Word) : fieldY w = BitVec.ofNat 4 (w.toNat / 16) :=
  BitVec.eq_of_toNat_eq (toNat_fieldY w)

theorem fieldN_eq_ofNat (w : Word) : fieldN w = BitVec.ofNat 4 w.toNat :=
  BitVec.eq_of_toNat_eq (toNat_fieldN w)

theorem fieldKK_eq_ofNat (w : Word) : fieldKK w = BitVec.ofNat 8 w.toNat :=
  BitVec.eq_of_toNat_eq (toNat_fieldKK w)

theorem fieldNNN_eq_ofNat (w : Word) : fieldNNN w = BitVec.ofNat 12 w.toNat :=
  BitVec.eq_of_toNat_eq (toNat_fieldNNN w)

/-- Settles O3: the map tests the same numbers in the order of its families, and its operands are digits of the word. -/
theorem opcodeMapByArithmetic : Obligations.OpcodeMapByArithmetic := by
  intro w
  dsimp only
  rw [← fieldX_eq_ofNat, ← fieldY_eq_ofNat, ← fieldN_eq_ofNat, ← fieldKK_eq_ofNat, ← fieldNNN_eq_ofNat, ← toNat_fieldN,
    ← toNat_fieldT, ← toNat_fieldKK]
  by_cases h0 : (fieldT w).toNat = 0
  · simp [decodeWord, h0, decodeFamily0, ← BitVec.toNat_inj, apply_ite Except.ok]
  obtain ⟨hcls, hret⟩ : w.toNat ≠ 0x00E0 ∧ w.toNat ≠ 0x00EE := by rw [toNat_fieldT] at h0; omega
  rw [if_neg hcls, if_neg hret]
  match ht : (fieldT w).toNat, (fieldT w).isLt with
  | 0x0, _ => exact absurd ht h0
  | 0x1, _ | 0x2, _ | 0x3, _ | 0x4, _ | 0x6, _ | 0x7, _ | 0xA, _ | 0xB, _ | 0xC, _ | 0xD, _ => simp [decodeWord, ht]
  | 0x5, _ | 0x9, _ => simp [decodeWord, ht, ← BitVec.toNat_inj]
  | 0x8, _ =>
    simp only [decodeWord, ht, decodeFamily8]
    split <;> simp_all
  | 0xE, _ => simp [decodeWord, ht, decodeFamilyE, ← BitVec.toNat_inj]
  | 0xF, _ => simp [decodeWord, ht, decodeFamilyF, ← BitVec.toNat_inj]
  | _ + 16, hlt => omega

end Sys2Proof

namespace Sys2Proof.Machine

/-! ### The step (R49, R51) -/

/-- Settles O54: the clause on pc of what an instruction writes. -/
theorem onlyControlFlowMovesPc : Obligations.OnlyControlFlowMovesPc := by
  intro i s t h
  obtain ⟨-, -, hpc, -⟩ := onlyTheListedInstructionsWrite i s t h
  exact hpc

/-- Settles O4: each decode is of a fixed word. -/
theorem wordsOfEachFamilyDecode : Obligations.WordsOfEachFamilyDecode := by
  unfold Obligations.WordsOfEachFamilyDecode
  and_intros <;> rfl

/-- Settles O5: a turn that executes is a step of the core, and the bytes it fetches are the ones decoded. -/
theorem stepRunsTheDecodedInstruction : Obligations.StepRunsTheDecodedInstruction := by
  intro s n i hr ha hd
  have hi : decodeWord (fetchWord s) = .ok i := decode_pair_ok.1 hd
  rw [step_runs hr]
  exact cpuStep_instr (s := { s with batch := some n }) ha hi

theorem decode_pair_error {hi lo : Byte} {e : DecodeError} :
    decode [hi, lo] = .error e ↔ decodeWord (wordOfBytes hi lo) = .error e := by
  simp only [decode]; cases h : decodeWord (wordOfBytes hi lo) <;> simp

/-- The address of the instruction that a step has just moved past (R95). -/
@[simp] theorem instrAddr_advance (s : State) : instrAddr (advance s) = s.pc := by
  simp [instrAddr]

/-- Settles O6: the word that the step rejects is the one fetched, and raising comes after the advance. -/
theorem undefinedWordStep : Obligations.UndefinedWordStep := by
  intro s n w hr ha hd
  have he : decodeWord (fetchWord s) = .error (.undefinedWord w) := decode_pair_error.1 hd
  obtain rfl : w = fetchWord s := by simpa using decodeWord_error he
  have hstep : step s = execUndefined (fetchWord s) (advance { s with batch := some n }) := by
    rw [step_runs hr]
    exact cpuStep_undefined (s := { s with batch := some n }) ha he
  constructor <;> intro hu
  · rw [hstep, execUndefined, advance_params, hu]; rfl
  · rw [hstep, execUndefined, advance_params, hu]
    simp only [raise, latchFault, instrAddr_advance]; rfl

end Sys2Proof.Machine
end

section
/-! PROOFS. The family of 41_control_flow.md: the jumps, the call and the return, and what the two make of the stack (R54 to
R61). -/

namespace Sys2Proof.Machine

/-! ### Encodings (R45, R48) -/

/-- Every instruction with a row in the opcode map and its word stand for each other. -/
theorem encodes_encode {i : Instr} (h : i.wf = true) : Encodes (encode i) i := ⟨decodeWord_encode h, rfl⟩

/-! ### The jumps (R57, R58, R60) -/

/-- The sum that Bnnn forms stays below 2^16, so no bit of it is lost (R60). -/
theorem toNat_addrImm_add_regWord (nnn : Addr12) (s : State) (x : Nibble) :
    (addrImm nnn + regWord s x).toNat = nnn.toNat + (readV s x).toNat := by
  simp only [addrImm, regWord, BitVec.toNat_add, BitVec.toNat_setWidth]; omega

/-- Settles O12: the target of Bnnn is a sum of at most 0xFFF + 0xFF. -/
theorem jumpsAndNoOp : Obligations.JumpsAndNoOp := by
  intro nnn s
  refine ⟨fun hcls hret => encodes_encode (i := .sys nnn) ?_, rfl, encodes_encode (i := .jp nnn) rfl, rfl,
    encodes_encode (i := .jpV0 nnn) rfl, addrImm nnn + regWord s v0, toNat_addrImm_add_regWord nnn s v0, ?_, rfl⟩
  · simpa [Instr.wf] using And.intro hcls hret
  · rw [toNat_addrImm_add_regWord]; omega

/-! ### The call and the return (R54 to R56, R59) -/

/-- With room on the stack, a call pushes the return address and jumps (R54, R59). -/
theorem exec_call_of_room (nnn : Addr12) {s : State} (h : s.stack.length ≠ s.params.stackCapacity) :
    exec (.call nnn) s = .next { s with stack := s.stack ++ [s.pc], pc := addrImm nnn } := by
  simp only [exec, execCall, push_eq, if_neg h]

/-- With the stack at capacity, a call raises and changes nothing else (R54, R97). -/
theorem exec_call_of_full (nnn : Addr12) {s : State} (h : s.stack.length = s.params.stackCapacity) :
    exec (.call nnn) s = .next (raised s .stackOverflow (encode (.call nnn)) .none) := by
  simp only [exec, execCall, push_eq, if_pos h]; rfl

/-- A return takes the last pushed value off the stack and into pc (R55, R56). -/
theorem exec_ret_of_pushed {s : State} {l : List Word} {w : Word} (h : s.stack = l ++ [w]) :
    exec .ret s = .next { s with stack := l, pc := w } := by
  simp only [exec, execRet, pop_concat h]

/-- With an empty stack, a return raises and changes nothing else (R55, R97). -/
theorem exec_ret_of_empty {s : State} (h : s.stack = []) :
    exec .ret s = .next (raised s .stackUnderflow (encode .ret) .none) := by
  simp only [exec, execRet, pop_nil h]; rfl

/-- Settles O13: the two answers of the call, on a stack with room and on a full one. -/
theorem callPushesTheReturnAddress : Obligations.CallPushesTheReturnAddress := fun nnn _ =>
  ⟨encodes_encode (i := .call nnn) rfl, exec_call_of_room nnn, exec_call_of_full nnn⟩

/-- Settles O14: the two answers of the return, on a stack that ends in a pushed value and on an empty one. -/
theorem returnPopsTheStack : Obligations.ReturnPopsTheStack :=
  ⟨encodes_encode (i := .ret) rfl, fun _ => ⟨fun _ _ => exec_ret_of_pushed, exec_ret_of_empty⟩⟩

/-- Settles O15: the return pops the very pc that the call pushed, wherever pc has come to in between. -/
theorem returnUndoesCall : Obligations.ReturnUndoesCall := by
  intro nnn s hroom
  refine ⟨_, exec_call_of_room nnn hroom, ?_, fun p => exec_ret_of_pushed rfl⟩
  simp only [addrImm, BitVec.toNat_setWidth]; omega

end Sys2Proof.Machine
end

section
/-! PROOFS. The family of 42_skips.md: the comparisons of two registers and of a register with an immediate (R52, R62 to
R65). -/

namespace Sys2Proof.Machine

/-! ### The skip over one word (R52) -/

/-- A skip on a Boolean test of `p` moves pc by 2 more where `p` holds. -/
theorem skipIf_of_iff {c : Bool} {p : Prop} [Decidable p] (h : c = true ↔ p) (s : State) :
    skipIf c s = { s with pc := if p then s.pc + 2 else s.pc } := by
  simp only [skipIf, h]

/-- A skip on a Boolean test of `¬ p` moves pc by 2 more where `p` fails. -/
theorem skipIf_of_iff_not {c : Bool} {p : Prop} [Decidable p] (h : c = true ↔ ¬ p) (s : State) :
    skipIf c s = { s with pc := if p then s.pc else s.pc + 2 } := by
  simp only [skipIf_of_iff h, ite_not]

/-! ### The four comparisons (R62 to R65) -/

/-- Settles O16: each skip tests the equality that its clause names, or the negation of it. -/
theorem skipsCompareRegisters : Obligations.SkipsCompareRegisters := fun x y kk s =>
  ⟨encodes_encode (i := .seImm x kk) rfl, congrArg Host.Outcome.next (skipIf_of_iff beq_iff_eq s),
    encodes_encode (i := .sneImm x kk) rfl, congrArg Host.Outcome.next (skipIf_of_iff_not bne_iff_ne s),
    encodes_encode (i := .seReg x y) rfl, congrArg Host.Outcome.next (skipIf_of_iff beq_iff_eq s),
    encodes_encode (i := .sneReg x y) rfl, congrArg Host.Outcome.next (skipIf_of_iff_not bne_iff_ne s)⟩

end Sys2Proof.Machine
end

section
/-! PROOFS. The family of 43_alu.md: the loads and the logic rows, the rows that write a flag under both orders of
`VF_ALIAS_ORDER` (R67 to R78), the masked draw (R79) and the read of the delay timer (R86). -/

namespace Sys2Proof.Machine

/-! ### Writing one register (R14) -/

theorem sameVExcept_writeV (s : State) (x : Nibble) (b : Byte) : SameVExcept s (writeV s x b) [x] := fun r hr => by
  rw [readV_writeV, if_neg (List.ne_of_not_mem_cons hr)]

/-- An instruction that answers one register write writes that register and nothing else. -/
theorem writesV_of_exec {i : Instr} {s : State} {x : Nibble} {b : Byte} (h : exec i s = .next (writeV s x b)) :
    WritesV i s x b :=
  ⟨_, h, onlyV_writeV x b (onlyV_refl s), by rw [readV_writeV, if_pos rfl], sameVExcept_writeV s x b⟩

/-- Writes to two registers can be exchanged. -/
theorem writeV_comm {x r : Nibble} (h : x ≠ r) (s : State) (b c : Byte) :
    writeV (writeV s x b) r c = writeV (writeV s r c) x b := by
  have hne : x.toNat ≠ r.toNat := fun e => h (BitVec.eq_of_toNat_eq e)
  simp only [writeV, Vector.set_comm _ _ hne]

/-! ### Loads, logic and the draw (R68 to R73, R79, R86) -/

/-- The sum of 7xkk is the sum of the numbers modulo 256 (R69). -/
theorem add_eq_ofNat_mod (a b : Byte) : a + b = BitVec.ofNat 8 ((a.toNat + b.toNat) % 256) := by
  apply BitVec.eq_of_toNat_eq
  rw [BitVec.toNat_add, BitVec.toNat_ofNat, Nat.mod_mod]

/-- Settles O18: each of the seven rows answers one register write. -/
theorem loadsAndLogicWriteOnlyVx : Obligations.LoadsAndLogicWriteOnlyVx := by
  intro x y kk s
  rw [← add_eq_ofNat_mod]
  exact ⟨encodes_encode (i := .ldImm x kk) rfl, writesV_of_exec rfl,
    encodes_encode (i := .addImm x kk) rfl, writesV_of_exec rfl,
    encodes_encode (i := .ldReg x y) rfl, writesV_of_exec rfl,
    encodes_encode (i := .or x y) rfl, writesV_of_exec rfl,
    encodes_encode (i := .and x y) rfl, writesV_of_exec rfl,
    encodes_encode (i := .xor x y) rfl, writesV_of_exec rfl,
    encodes_encode (i := .ldDtRead x) rfl, writesV_of_exec rfl⟩

/-- Settles O24: the register write comes after the draw, which moves the draw counter alone. -/
theorem randomIsMaskedDraw : Obligations.RandomIsMaskedDraw := by
  intro x kk s
  have hread : readV (writeV (drawRand s).2 x ((drawRand s).1 &&& kk)) x = Config.rand8 s.randDraws &&& kk := by
    rw [readV_writeV, if_pos rfl, drawRand_draw]
  refine ⟨encodes_encode (i := .rnd x kk) rfl, _, rfl, onlyV_writeV _ _ (onlyV_refl _), sameVExcept_writeV _ _ _,
    hread, ?_⟩
  rintro rfl
  exact hread.trans BitVec.and_zero

/-! ### Flags and results as numbers (R66, R74 to R78) -/

theorem carryFlag_eq (a b : Byte) : carryFlag a b = if 255 < a.toNat + b.toNat then 1 else 0 := by
  simp only [carryFlag, flagByte, decide_eq_true_eq]

theorem toNat_greaterFlag (a b : Byte) : (greaterFlag a b).toNat = if b.toNat < a.toNat then 1 else 0 := by
  simp only [greaterFlag, flagByte, decide_eq_true_eq]; split <;> rfl

theorem toNat_shrFlag (a : Byte) : (shrFlag a).toNat = a.toNat % 2 := by
  rw [shrFlag, BitVec.toNat_and]; exact Nat.and_one_is_mod _

/-- The top bit is set exactly from 128 on, so as a number it is the quotient by 128 (R78). -/
theorem toNat_shlFlag (a : Byte) : (shlFlag a).toNat = a.toNat / 128 := by
  revert a; decide

theorem toNat_sub_byte (a b : Byte) : (a - b).toNat = (a.toNat + 256 - b.toNat) % 256 := by
  rw [BitVec.toNat_sub]; omega

theorem toNat_shiftRight_byte (a : Byte) : (a >>> (1 : Nat)).toNat = a.toNat / 2 := by
  rw [BitVec.toNat_ushiftRight, Nat.shiftRight_eq_div_pow, pow_one]

theorem toNat_shiftLeft_byte (a : Byte) : (a <<< (1 : Nat)).toNat = a.toNat * 2 % 256 := by
  rw [BitVec.toNat_shiftLeft, Nat.shiftLeft_eq, pow_one]

/-! ### The two writes of 8xy5, 8xy6, 8xy7 and 8xyE, one lemma per register and order (R67) -/

section
variable (f g : Byte → Byte → Byte) {x y : Nibble} {s : State}

theorem sameVExcept_flagAndResult : SameVExcept s (flagAndResult f g x y s) [x, 15] := fun r hr => by
  obtain ⟨hx, hf⟩ : r ≠ x ∧ r ≠ vf := by simpa [vf] using hr
  exact readV_flagAndResult_other f g s hx hf

/-- As written, the result reads the flag in the place of an operand that is VF (R67). -/
theorem readV_flagAndResult_asWritten (ho : s.params.vfAliasOrder = .asWritten) :
    readV (flagAndResult f g x y s) x =
      g (if x = 15 then f (readV s x) (readV s y) else readV s x)
        (if y = 15 then f (readV s x) (readV s y) else readV s y) := by
  rw [readV_flagAndResult, ho]; exact if_pos rfl

/-- Flag last, the flag is what VF ends with, whatever x is (R67). -/
theorem readVF_flagAndResult_flagLast (ho : s.params.vfAliasOrder = .flagLast) :
    readV (flagAndResult f g x y s) 15 = f (readV s x) (readV s y) := by
  rw [readV_flagAndResult, ho]; exact if_pos rfl

/-- Flag last, the result reads the old values (R67). -/
theorem readV_flagAndResult_flagLast (ho : s.params.vfAliasOrder = .flagLast) (hx : x ≠ 15) :
    readV (flagAndResult f g x y s) x = g (readV s x) (readV s y) := by
  rw [readV_flagAndResult, ho]; exact (if_neg hx).trans (if_pos rfl)

/-- The flag stays in VF under both orders when the result goes elsewhere (R67). -/
theorem readVF_flagAndResult (hx : x ≠ 15) : readV (flagAndResult f g x y s) 15 = f (readV s x) (readV s y) := by
  cases ho : s.params.vfAliasOrder with
  | asWritten => rw [readV_flagAndResult, ho]; exact (if_neg hx.symm).trans (if_pos rfl)
  | flagLast => exact readVF_flagAndResult_flagLast f g ho

/-- With neither x nor y equal to 15, both orders make the same two writes of the same two values (R67). -/
theorem flagAndResult_of_ne (hx : x ≠ 15) (hy : y ≠ 15) :
    flagAndResult f g x y s =
      writeV (writeV s vf (f (readV s x) (readV s y))) x (g (readV s x) (readV s y)) := by
  have hx : x ≠ vf := hx
  have hy : y ≠ vf := hy
  cases ho : s.params.vfAliasOrder with
  | asWritten => simp only [flagAndResult, ho, readV_writeV, if_neg hx, if_neg hy]
  | flagLast => simp only [flagAndResult, ho, writeV_comm hx]

end

/-- The two writes as numbers, for a flag `n` and a result that is `d` of the numbers of its operands (R67). -/
theorem toNat_flagAndResult {f g : Byte → Byte → Byte} {x y : Nibble} {s : State} {n : Nat} {d : Nat → Nat → Nat}
    (hf : (f (readV s x) (readV s y)).toNat = n) (hg : ∀ a b, (g a b).toNat = d a.toNat b.toNat) :
    let t := flagAndResult f g x y s
    (x ≠ 15 → (readV t 15).toNat = n) ∧
    (s.params.vfAliasOrder = .asWritten →
      (readV t x).toNat = d (if x = 15 then n else (readV s x).toNat) (if y = 15 then n else (readV s y).toNat)) ∧
    (s.params.vfAliasOrder = .flagLast →
      (x ≠ 15 → (readV t x).toNat = d (readV s x).toNat (readV s y).toNat) ∧
      (readV t 15).toNat = n) := by
  dsimp only
  refine ⟨fun hx => ?_, fun ho => ?_, fun ho => ⟨fun hx => ?_, ?_⟩⟩
  · rw [readVF_flagAndResult f g hx, hf]
  · rw [readV_flagAndResult_asWritten f g ho, hg, apply_ite BitVec.toNat, apply_ite BitVec.toNat, hf]
  · rw [readV_flagAndResult_flagLast f g ho hx, hg]
  · rw [readVF_flagAndResult_flagLast f g ho, hf]

/-- Where flag and result read Vx alone, y does not matter, and as written with x = 15 the result is that of the flag
(R67, R76, R78). -/
theorem toNat_flagAndResult_unary {f g : Byte → Byte} {x y : Nibble} {s : State} {n : Nat} {d : Nat → Nat}
    (hf : (f (readV s x)).toNat = n) (hg : ∀ a, (g a).toNat = d a.toNat) :
    let t := flagAndResult (fun a _ => f a) (fun a _ => g a) x y s
    (x ≠ 15 → (readV t x).toNat = d (readV s x).toNat ∧ (readV t 15).toNat = n) ∧
    (x = 15 → s.params.vfAliasOrder = .asWritten → (readV t 15).toNat = d n) ∧
    (s.params.vfAliasOrder = .flagLast → (readV t 15).toNat = n) := by
  dsimp only
  obtain ⟨hflag, hwritten, hlast⟩ := toNat_flagAndResult (f := fun a _ => f a) (g := fun a _ => g a) (y := y)
    (d := fun a _ => d a) hf fun a _ => hg a
  refine ⟨fun hx => ⟨?_, hflag hx⟩, ?_, fun ho => (hlast ho).2⟩
  · cases ho : s.params.vfAliasOrder with
    | asWritten => rw [hwritten ho, if_neg hx]
    | flagLast => exact (hlast ho).1 hx
  · rintro rfl ho
    rw [hwritten ho, if_pos rfl]

/-! ### The two writes of 8xy4 (R74) -/

section
variable {x y : Nibble} {s : State}

theorem sameVExcept_sumThenFlag : SameVExcept s (sumThenFlag x y s) [x, 15] := fun r hr => by
  obtain ⟨hx, hf⟩ : r ≠ x ∧ r ≠ vf := by simpa [vf] using hr
  exact readV_sumThenFlag_other s hx hf

/-- With x other than 15, both orders make the same two writes (R67, R74). -/
theorem sumThenFlag_of_ne (hx : x ≠ 15) :
    sumThenFlag x y s =
      writeV (writeV s vf (carryFlag (readV s x) (readV s y))) x (readV s x + readV s y) := by
  cases ho : s.params.vfAliasOrder with
  | asWritten => simp only [sumThenFlag, ho]
  | flagLast => simp only [sumThenFlag, ho]; exact writeV_comm hx s _ _

theorem readVF_sumThenFlag_asWritten (ho : s.params.vfAliasOrder = .asWritten) :
    readV (sumThenFlag 15 y s) 15 = readV s 15 + readV s y := by
  rw [readV_sumThenFlag, ho]; exact if_pos rfl

theorem readVF_sumThenFlag_flagLast (ho : s.params.vfAliasOrder = .flagLast) :
    readV (sumThenFlag x y s) 15 = carryFlag (readV s x) (readV s y) := by
  rw [readV_sumThenFlag, ho]; exact if_pos rfl

end

/-! ### The flag-writing rows (R74 to R78) -/

/-- Settles O19: both writes survive where they go to different registers, and the later one where they do not. -/
theorem addSetsCarry : Obligations.AddSetsCarry := by
  intro x y s
  dsimp only
  rw [← carryFlag_eq]
  refine ⟨encodes_encode (i := .addReg x y) rfl, _, rfl, sumThenFlag_only x y s, sameVExcept_sumThenFlag, ?_, ?_, ?_⟩
  · intro hx
    rw [sumThenFlag_of_ne hx, readV_writeV, if_pos rfl, readV_writeV, if_neg hx.symm, readV_writeV]
    exact ⟨BitVec.toNat_add _ _, if_pos rfl⟩
  · rintro rfl ho
    rw [readVF_sumThenFlag_asWritten ho]; exact BitVec.toNat_add _ _
  · intro _ ho
    exact readVF_sumThenFlag_flagLast ho

/-- Settles O20: the flag is the strict comparison; as written, it stands in for the operand that is VF. -/
theorem subtractSetsNoBorrow : Obligations.SubtractSetsNoBorrow := fun x y s =>
  ⟨encodes_encode (i := .sub x y) rfl, _, rfl, flagAndResult_only _ _ x y s, sameVExcept_flagAndResult _ _,
    toNat_flagAndResult (d := fun a b => (a + 256 - b) % 256) (toNat_greaterFlag _ _) toNat_sub_byte⟩

/-- Settles O21: the same two writes with the operands of the comparison and of the difference exchanged. -/
theorem reverseSubtractSetsNoBorrow : Obligations.ReverseSubtractSetsNoBorrow := fun x y s =>
  ⟨encodes_encode (i := .subn x y) rfl, _, rfl, flagAndResult_only _ _ x y s, sameVExcept_flagAndResult _ _,
    toNat_flagAndResult (d := fun a b => (b + 256 - a) % 256) (toNat_greaterFlag _ _) fun a b => toNat_sub_byte b a⟩

/-- Settles O22: both shifts read Vx alone; as written with x = 15, they shift the flag, which is 0 or 1. -/
theorem shiftsSetTheBitShiftedOut : Obligations.ShiftsSetTheBitShiftedOut := by
  intro x y s
  have hlt := (readV s x).isLt
  obtain ⟨hrNe, hrWritten, hrLast⟩ :=
    toNat_flagAndResult_unary (y := y) (d := (· / 2)) (toNat_shrFlag (readV s x)) toNat_shiftRight_byte
  obtain ⟨hlNe, hlWritten, hlLast⟩ :=
    toNat_flagAndResult_unary (y := y) (d := (· * 2 % 256)) (toNat_shlFlag (readV s x)) toNat_shiftLeft_byte
  exact ⟨encodes_encode (i := .shr x y) rfl, encodes_encode (i := .shl x y) rfl,
    ⟨_, rfl, flagAndResult_only _ _ x y s, sameVExcept_flagAndResult _ _, hrNe,
      fun hx ho => (hrWritten hx ho).trans (by omega), fun _ => hrLast⟩,
    ⟨_, rfl, flagAndResult_only _ _ x y s, sameVExcept_flagAndResult _ _, hlNe,
      fun hx ho => (hlWritten hx ho).trans (by omega), fun _ => hlLast⟩⟩

/-! ### The order of the VF write (R67) -/

/-- With neither operand in VF, the two writes do not depend on the parameters. -/
theorem flagAndResult_params (f g : Byte → Byte → Byte) {x y : Nibble} (hx : x ≠ 15) (hy : y ≠ 15) (s : State)
    (p : Params) : flagAndResult f g x y { s with params := p } = { flagAndResult f g x y s with params := p } := by
  rw [flagAndResult_of_ne f g hx hy, flagAndResult_of_ne f g hx hy]; rfl

theorem sumThenFlag_params {x : Nibble} (hx : x ≠ 15) (y : Nibble) (s : State) (p : Params) :
    sumThenFlag x y { s with params := p } = { sumThenFlag x y s with params := p } := by
  rw [sumThenFlag_of_ne hx, sumThenFlag_of_ne hx]; rfl

/-- Settles O23: the writes of each of the five rows are then the same under every parameter. -/
theorem aliasOrderNotObservable : Obligations.AliasOrderNotObservable := by
  intro x y s o i hx hy hi
  simp only [List.mem_cons, List.not_mem_nil, or_false] at hi
  rcases hi with rfl | rfl | rfl | rfl | rfl
  · exact ⟨_, rfl, congrArg Host.Outcome.next (sumThenFlag_params hx y s _)⟩
  all_goals exact ⟨_, rfl, congrArg Host.Outcome.next (flagAndResult_params _ _ hx hy s _)⟩

end Sys2Proof.Machine
end

section
/-! PROOFS. The family of 44_index_memory.md: the writes of I (R80 to R82), and the transfers through I, which check the
whole run of addresses before they move a byte (R39, R83 to R85). -/

namespace Sys2Proof.Machine

/-! ### The writes of I (R80 to R82) -/

@[simp] theorem toNat_regWord (s : State) (x : Nibble) : (regWord s x).toNat = (readV s x).toNat := by
  rw [regWord, BitVec.toNat_setWidth]; omega

/-- Five times a byte stays below 2^16, so no bit of the product is lost (R82). -/
theorem toNat_regWord_mul_five (s : State) (x : Nibble) : (regWord s x * 5).toNat = (readV s x).toNat * 5 := by
  rw [BitVec.toNat_mul, toNat_regWord, show (5 : Word).toNat = 5 from rfl]; omega

/-- Settles O25: the immediate of Annn is extended with zeros, and the product of Fx29 is at most 255 * 5. -/
theorem indexLoads : Obligations.IndexLoads := fun x nnn s =>
  ⟨encodes_encode (i := .ldI nnn) rfl, rfl, encodes_encode (i := .ldF x) rfl,
    regWord s x * 5, toNat_regWord_mul_five s x, rfl⟩

/-- Settles O26: the sum of two words is the sum of their numbers modulo 2^16. -/
theorem addToIndexWraps : Obligations.AddToIndexWraps := fun x s =>
  ⟨encodes_encode (i := .addI x) rfl, s.i + regWord s x, by rw [BitVec.toNat_add, toNat_regWord], rfl⟩

/-! ### The address check of the transfers (R39) -/

section
variable {x : Nibble} {s : State}

theorem exec_ldB_of_addrsOk (h : AddrsOk s (baseI s) 3) :
    exec (.ldB x) s = .next (storeBytes s (baseI s) (bcdDigits (readV s x))) := by
  simp only [exec, execLdB, firstBadAddr_eq_none.2 h]

theorem exec_ldB_of_not_addrsOk (h : ¬ AddrsOk s (baseI s) 3) :
    exec (.ldB x) s = .next (raised s .addressOutOfRange (encode (.ldB x)) (.address (max (baseI s) 0x1000))) := by
  simp only [exec, execLdB, firstBadAddr_of_not_addrsOk h]; rfl

theorem exec_stRegs_of_addrsOk (h : AddrsOk s (baseI s) (regCount x)) :
    exec (.stRegs x) s = .next (storeBytes s (baseI s) (readRegs s (regCount x))) := by
  simp only [exec, execStRegs, firstBadAddr_eq_none.2 h]

theorem exec_stRegs_of_not_addrsOk (h : ¬ AddrsOk s (baseI s) (regCount x)) :
    exec (.stRegs x) s =
      .next (raised s .addressOutOfRange (encode (.stRegs x)) (.address (max (baseI s) 0x1000))) := by
  simp only [exec, execStRegs, firstBadAddr_of_not_addrsOk h]; rfl

theorem exec_ldRegs_of_addrsOk (h : AddrsOk s (baseI s) (regCount x)) :
    exec (.ldRegs x) s = .next (writeRegs s 0 (readBytes s (baseI s) (regCount x))) := by
  simp only [exec, execLdRegs, firstBadAddr_eq_none.2 h]

theorem exec_ldRegs_of_not_addrsOk (h : ¬ AddrsOk s (baseI s) (regCount x)) :
    exec (.ldRegs x) s =
      .next (raised s .addressOutOfRange (encode (.ldRegs x)) (.address (max (baseI s) 0x1000))) := by
  simp only [exec, execLdRegs, firstBadAddr_of_not_addrsOk h]; rfl

end

/-! ### The three decimal digits (R83) -/

@[simp] theorem length_bcdDigits (b : Byte) : (bcdDigits b).length = 3 := rfl

/-- Each digit of a byte fits a byte, so the stored byte is the digit (R83). -/
theorem toNat_bcdDigits (b : Byte) :
    (bcdDigits b)[0].toNat = b.toNat / 100 ∧ (bcdDigits b)[1].toNat = b.toNat / 10 % 10 ∧
      (bcdDigits b)[2].toNat = b.toNat % 10 := by
  simp only [bcdDigits, List.getElem_cons_zero, List.getElem_cons_succ, BitVec.toNat_ofNat]
  omega

/-- Fx33 puts digit k into the cell of I + k (R83). -/
theorem cellRead_storeBcd (s : State) (a : Nat) (b : Byte) {k : Nat} (hk : k < 3) :
    cellRead (storeBytes s a (bcdDigits b)).mem (cellOf (a + k)) = (bcdDigits b)[k] :=
  cellRead_storeBytes s a (bcdDigits b) (by rw [length_bcdDigits]; decide) k hk

/-- Settles O28: the run of three bytes puts the digits into the cells of its addresses and leaves every other cell. -/
theorem bcdStoresThreeDigits : Obligations.BcdStoresThreeDigits := by
  intro x s
  refine ⟨encodes_encode (i := .ldB x) rfl, fun hok => ⟨_, exec_ldB_of_addrsOk hok, storeBytes_only _ _ _, ?_⟩,
    exec_ldB_of_not_addrsOk⟩
  have stored {k : Nat} (hk : k < 3) := congrArg BitVec.toNat (cellRead_storeBcd s (baseI s) (readV s x) hk)
  obtain ⟨hundreds, tens, ones⟩ := toNat_bcdDigits (readV s x)
  refine ⟨(stored (k := 0) (by decide)).trans hundreds, (stored (k := 1) (by decide)).trans tens,
    (stored (k := 2) (by decide)).trans ones, fun a h0 h1 h2 => ?_⟩
  refine cellRead_storeBytes_other _ _ _ _ fun k (hk : k < 3) => ?_
  obtain rfl | rfl | rfl : k = 0 ∨ k = 1 ∨ k = 2 := by omega
  · exact h0
  · exact h1
  · exact h2

/-! ### The registers V0 to Vx through memory and back (R84, R85) -/

/-- The registers that Fx55 and Fx65 move are those up to Vx (R47). -/
theorem toNat_lt_regCount {k x : Nibble} : k.toNat < regCount x ↔ k ≤ x := by
  rw [regCount, Nat.lt_succ_iff, BitVec.le_def]

theorem regCount_le (x : Nibble) : regCount x ≤ 16 := x.isLt

/-- Fx55 puts V[k] into the cell of I + k (R84). -/
theorem cellRead_storeRegs (s : State) (a : Nat) {k x : Nibble} (h : k ≤ x) :
    cellRead (storeBytes s a (readRegs s (regCount x))).mem (cellOf (a + k.toNat)) = readV s k := by
  have hlen : (readRegs s (regCount x)).length ≤ memSize := by
    rw [length_readRegs]; exact (regCount_le x).trans (by decide)
  rw [cellRead_storeBytes s a _ hlen k.toNat (by rw [length_readRegs]; exact toNat_lt_regCount.2 h),
    getElem_readRegs, BitVec.ofNat_toNat, BitVec.setWidth_eq]

/-- Fx55 leaves every cell that none of its addresses reaches (R84). -/
theorem cellRead_storeRegs_other (s : State) (a : Nat) {x : Nibble} {c : Nat}
    (h : ∀ k : Nibble, k ≤ x → c ≠ cellOf (a + k.toNat)) :
    cellRead (storeBytes s a (readRegs s (regCount x))).mem c = cellRead s.mem c := by
  refine cellRead_storeBytes_other _ _ _ _ fun k hk => ?_
  rw [length_readRegs] at hk
  have hnum : (BitVec.ofNat 4 k).toNat = k := Nat.mod_eq_of_lt (hk.trans_le (regCount_le x))
  rw [← hnum] at hk ⊢
  exact h _ (toNat_lt_regCount.1 hk)

/-- Fx65 takes the registers up to Vx from the run at I and leaves the others (R85). -/
theorem readV_loadRegs (s : State) (a : Nat) (x k : Nibble) :
    readV (writeRegs s 0 (readBytes s a (regCount x))) k = if k ≤ x then memRead s (a + k.toNat) else readV s k := by
  split
  next h =>
    rw [readV_writeRegs _ _ _ (by rw [length_readBytes, Nat.zero_add]; exact regCount_le x), dif_pos, getElem_readBytes,
      Nat.sub_zero]
    rw [length_readBytes]; exact ⟨Nat.zero_le _, toNat_lt_regCount.2 h⟩
  next h => exact readV_loadRegs_other s a h

/-- Settles O29: the run of the registers V0 to Vx, and the check of its addresses. -/
theorem storeRegistersWritesTheRun : Obligations.StoreRegistersWritesTheRun := fun x s =>
  ⟨encodes_encode (i := .stRegs x) rfl,
    fun hok => ⟨_, exec_stRegs_of_addrsOk hok, storeBytes_only _ _ _, fun _ => cellRead_storeRegs s _,
      fun _ => cellRead_storeRegs_other s _⟩,
    exec_stRegs_of_not_addrsOk⟩

/-- Settles O30: the register writes of the bytes at I to I + x, and the check of their addresses. -/
theorem loadRegistersReadsTheRun : Obligations.LoadRegistersReadsTheRun := fun x s =>
  ⟨encodes_encode (i := .ldRegs x) rfl,
    fun hok => ⟨_, exec_ldRegs_of_addrsOk hok, writeRegs_only _ _ _, readV_loadRegs s _ x⟩,
    exec_ldRegs_of_not_addrsOk⟩

/-- Settles O31: the store leaves I and the address policy, so the load reads the very cells that the store wrote. -/
theorem loadAfterStoreRestoresRegisters : Obligations.LoadAfterStoreRestoresRegisters := by
  intro x s t u hok ht hmem hi hparams
  obtain rfl : storeBytes s (baseI s) (readRegs s (regCount x)) = t :=
    Host.Outcome.next.inj ((exec_stRegs_of_addrsOk hok).symm.trans ht)
  rw [storeBytes_only] at hi hparams
  have hbase : baseI u = baseI s := congrArg BitVec.toNat hi
  have hload : AddrsOk u (baseI u) (regCount x) := by
    unfold AddrsOk; rw [hparams, hbase]; exact hok
  refine ⟨_, exec_ldRegs_of_addrsOk hload, fun k hk => ?_⟩
  rw [readV_loadRegs, if_pos hk, memRead, hmem, hbase, cellRead_storeRegs s _ hk]

end Sys2Proof.Machine
end

section
/-! PROOFS. The family of 45_timers.md: the writes of the two timers (R87, R88). -/

namespace Sys2Proof.Machine

/-- Settles O27: each row is its own word in the opcode map, and its meaning is the update of one timer, by definition of
`exec`; the tone bit waits for the next tone update. -/
theorem timerWrites : Obligations.TimerWrites := fun x _ =>
  ⟨encodes_encode (i := .ldDtWrite x) rfl, rfl, encodes_encode (i := .ldSt x) rfl, rfl⟩

end Sys2Proof.Machine
end

section
/-! PROOFS. The family of 46_display.md: 00E0 clears the display (R89, R109); Dxyn inverts the cells of its sprite, or raises
and leaves them (R39, R90, R98, R107, R108). -/

namespace Sys2Proof.Machine

/-- Settles O32: the meaning of 00E0 is `clearDisplay`, which replaces the display and nothing else. -/
theorem clearDisplayClearsEveryCell : Obligations.ClearDisplayClearsEveryCell :=
  ⟨encodes_encode (i := .cls) rfl, fun s => ⟨clearDisplay s, rfl, rfl, fun _ => Vector.getElem_replicate⟩⟩

/-! ### The cells of a sprite, on any display (R90, R107) -/

section
variable {x y n : Nibble} {s : State} {d : Vector Bool 2048} {c : Nat} {hc : c < 2048}

theorem drawPixels_drwPixels_of_hit (h : SpriteHits s x y n c) : (drawPixels d (drwPixels x y n s)).1[c] = !d[c] := by
  rw [drawPixels_cell _ _ (nodup_drwPixels s x y n), if_pos ((mem_drwPixels_cell s x y n c).2 h)]

theorem drawPixels_drwPixels_of_not_hit (h : ¬ SpriteHits s x y n c) : (drawPixels d (drwPixels x y n s)).1[c] = d[c] := by
  rw [drawPixels_cell _ _ (nodup_drwPixels s x y n), if_neg (mt (mem_drwPixels_cell s x y n c).1 h)]

theorem drawPixels_drwPixels_collided :
    (drawPixels d (drwPixels x y n s)).2 = true ↔ ∃ (c : Nat) (_ : c < 2048), SpriteHits s x y n c ∧ d[c] = true := by
  rw [drawPixels_collided _ _ (nodup_drwPixels s x y n)]
  simp only [← mem_drwPixels_cell, List.mem_map]
  constructor
  · rintro ⟨p, hp, hon⟩; exact ⟨_, (pixelCell p.1 p.2).isLt, ⟨p, hp, rfl⟩, hon⟩
  · rintro ⟨_, _, ⟨p, hp, rfl⟩, hon⟩; exact ⟨p, hp, hon⟩

/-- Every cell of the sprite is inverted twice, and no other cell is touched (R90). -/
theorem drawPixels_drwPixels_twice : (drawPixels (drawPixels d (drwPixels x y n s)).1 (drwPixels x y n s)).1 = d := by
  ext c hc
  by_cases h : SpriteHits s x y n c
  · rw [drawPixels_drwPixels_of_hit h, drawPixels_drwPixels_of_hit h, Bool.not_not]
  · rw [drawPixels_drwPixels_of_not_hit h, drawPixels_drwPixels_of_not_hit h]

end

/-! ### Dxyn where nothing raises (R90) -/

/-- The state after a Dxyn that raises nothing: its pixels toggled, and the collision in VF. -/
def afterDraw (x y n : Nibble) (s : State) : State :=
  writeV { s with disp := (drawPixels s.disp (drwPixels x y n s)).1 } vf
    (flagByte (drawPixels s.disp (drwPixels x y n s)).2)

section
variable {x y n : Nibble} {s : State}

theorem exec_drw_of_ok (ha : AddrsOk s (baseI s) n.toNat)
    (hp : firstBadPixel s.params.coordPolicy (drwPixels x y n s) = none) :
    exec (.drw x y n) s = .next (afterDraw x y n s) := by
  simp only [exec, execDrw, firstBadAddr_eq_none.2 ha, hp]; rfl

theorem sameVExcept_afterDraw : SameVExcept s (afterDraw x y n s) [15] := sameVExcept_writeV _ _ _

theorem readVF_afterDraw : readV (afterDraw x y n s) 15 = flagByte (drawPixels s.disp (drwPixels x y n s)).2 :=
  (readV_writeV _ vf 15 _).trans (if_pos rfl)

/-- VF is 1 when a cell of the sprite was on (R90). -/
theorem readVF_afterDraw_of_collision (h : ∃ (c : Nat) (_ : c < 2048), SpriteHits s x y n c ∧ s.disp[c] = true) :
    readV (afterDraw x y n s) 15 = 1 := by
  rw [readVF_afterDraw, drawPixels_drwPixels_collided.2 h]; rfl

/-- VF is 0 when no cell of the sprite was on (R90). -/
theorem readVF_afterDraw_of_no_collision (h : ¬ ∃ (c : Nat) (_ : c < 2048), SpriteHits s x y n c ∧ s.disp[c] = true) :
    readV (afterDraw x y n s) 15 = 0 := by
  rw [readVF_afterDraw, Bool.eq_false_iff.2 (mt drawPixels_drwPixels_collided.1 h)]; rfl

/-- Dxyn draws the same pixels again, unless VF, which the draw has written, is a coordinate of its origin (R90). -/
theorem drwPixels_afterDraw (hx : x ≠ 15) (hy : y ≠ 15) : drwPixels x y n (afterDraw x y n s) = drwPixels x y n s := by
  rw [drwPixels, sameVExcept_afterDraw x (by simpa using hx), sameVExcept_afterDraw y (by simpa using hy)]; rfl

end

/-- Settles O34: no two pixels of a sprite share a cell, so toggling them inverts exactly the cells they reach. -/
theorem drawInvertsTheSpriteCells : Obligations.DrawInvertsTheSpriteCells := fun x y n s =>
  ⟨encodes_encode (i := .drw x y n) rfl, fun ha hc =>
    ⟨afterDraw x y n s, exec_drw_of_ok ha (firstBadPixel_of_coordsOk hc), rfl, sameVExcept_afterDraw,
      fun _ _ => ⟨drawPixels_drwPixels_of_hit, drawPixels_drwPixels_of_not_hit⟩,
      readVF_afterDraw_of_collision, readVF_afterDraw_of_no_collision⟩⟩

/-- Settles O36: the second draw toggles the same pixels, and a cell that the first turned on is on when it comes. -/
theorem drawTwiceRestoresTheDisplay : Obligations.DrawTwiceRestoresTheDisplay := by
  intro x y n s hx hy ha hc
  have hp := firstBadPixel_of_coordsOk hc
  have again := drwPixels_afterDraw (n := n) (s := s) hx hy
  refine ⟨_, afterDraw x y n (afterDraw x y n s), exec_drw_of_ok ha hp, exec_drw_of_ok ha ?_, ?_, ?_⟩
  · rw [again]; exact hp
  · rw [afterDraw, again]; exact drawPixels_drwPixels_twice
  · rintro ⟨c, hlt, hit, hoff⟩
    have turnedOn : (afterDraw x y n s).disp[c] = true :=
      (drawPixels_drwPixels_of_hit hit).trans (by rw [hoff]; rfl)
    have hitAgain : SpriteHits (afterDraw x y n s) x y n c := by
      rwa [← mem_drwPixels_cell, again, mem_drwPixels_cell]
    exact readVF_afterDraw_of_collision ⟨c, hlt, hitAgain, turnedOn⟩

/-! ### Dxyn where something raises (R39, R90, R98) -/

section
variable {x y n : Nibble} {s : State}

theorem exec_drw_of_not_addrsOk (h : ¬ AddrsOk s (baseI s) n.toNat) :
    exec (.drw x y n) s =
      .next (raised s .addressOutOfRange (encode (.drw x y n)) (.address (max (baseI s) 0x1000))) := by
  simp only [exec, execDrw, firstBadAddr_of_not_addrsOk h]; rfl

theorem exec_drw_of_badPixel {px py : Int} (ha : AddrsOk s (baseI s) n.toNat)
    (hp : firstBadPixel s.params.coordPolicy (drwPixels x y n s) = some (px, py)) :
    exec (.drw x y n) s = .next (raised s .coordinateOutOfContract (encode (.drw x y n)) (.coords px py)) := by
  simp only [exec, execDrw, firstBadAddr_eq_none.2 ha, hp]; rfl

end

/-- The first pixel of a row that `f` accepts is that of its first set bit, in column order, whose pixel `f` accepts. -/
theorem find?_rowPixels {f : Int × Int → Bool} {x y : Int} {row : Byte} {c : Nat} (hc : c < 8)
    (hb : row.getLsbD (7 - c) = true) (hf : f (x + c, y) = true)
    (hfirst : ∀ c' < c, row.getLsbD (7 - c') = true → f (x + c', y) = false) :
    (rowPixels x y row).find? f = some (x + c, y) := by
  have hcol : ((List.range 8).filter fun c => row.getLsbD (7 - c)).find? (f ∘ fun (c : Nat) => (x + c, y)) = some c := by
    rw [List.find?_filter, List.find?_range_eq_some]
    refine ⟨by simp [hb, hf], List.mem_range.2 hc, fun c' hc' => ?_⟩
    simpa [or_iff_not_imp_left] using hfirst c' hc'
  rw [rowPixels, List.find?_map, hcol]; rfl

/-- The first pixel of a sprite that `f` accepts is that of its first set bit, row by row and column by column, whose pixel
`f` accepts (R90, R108). -/
theorem find?_spritePixels {f : Int × Int → Bool} {x y : Int} {l : List Byte} {r c : Nat} (hr : r < l.length) (hc : c < 8)
    (hb : l[r].getLsbD (7 - c) = true) (hf : f (x + c, y + r) = true)
    (hfirst : ∀ (r' c' : Nat) (h : r' < l.length), c' < 8 → (r' < r ∨ r' = r ∧ c' < c) → l[r'].getLsbD (7 - c') = true →
      f (x + c', y + r') = false) :
    (spritePixels x y l).find? f = some (x + c, y + r) := by
  induction l generalizing y r with
  | nil => exact absurd hr (Nat.not_lt_zero r)
  | cons row rest ih =>
    rw [spritePixels, List.find?_append]
    cases r with
    | zero =>
      have hrow : (rowPixels x y row).find? f = some (x + c, y) :=
        find?_rowPixels hc hb (by simpa using hf) fun c' hc' hb' => by
          simpa using hfirst 0 c' hr (hc'.trans hc) (.inr ⟨rfl, hc'⟩) hb'
      simp [hrow]
    | succ r =>
      have hnext (k : Nat) : y + (k + 1 : Nat) = y + 1 + k := by push_cast; ring
      have hrow : (rowPixels x y row).find? f = none := by
        rw [List.find?_eq_none]
        intro p hp
        simp only [rowPixels, List.mem_map, List.mem_filter, List.mem_range] at hp
        obtain ⟨c', ⟨hc', hb'⟩, rfl⟩ := hp
        simpa using hfirst 0 c' (Nat.succ_pos _) hc' (.inl (Nat.succ_pos r)) hb'
      rw [hrow, Option.none_or, hnext]
      refine ih (Nat.lt_of_succ_lt_succ hr) hb (hnext r ▸ hf) fun r' c' h hc' hbefore hb' => ?_
      rw [← hnext]
      exact hfirst (r' + 1) c' (Nat.succ_lt_succ h) hc' (by omega) hb'

/-- The coordinate that raises is that of the first set bit, in row and column order, that is out of contract (R90). -/
theorem firstBadPixel_of_first {x y n : Nibble} {s : State} {r c : Nat} (hp : s.params.coordPolicy = .fault)
    (hr : r < n.toNat) (hc : c < 8) (hb : spriteBit s r c = true) (hout : ¬ BitInContract s x y r c)
    (hfirst : ∀ r' c', c' < 8 → (r' < r ∨ r' = r ∧ c' < c) → spriteBit s r' c' = true → BitInContract s x y r' c') :
    firstBadPixel s.params.coordPolicy (drwPixels x y n s) =
      some ((((readV s x).toNat + c : Nat) : Int), (((readV s y).toNat + r : Nat) : Int)) := by
  have hcontract (r c : Nat) := outOfContract_nat ((readV s x).toNat + c) ((readV s y).toNat + r)
  push_cast at hcontract ⊢
  rw [hp]
  refine find?_spritePixels (by simpa using hr) hc (by rw [getElem_readBytes]; exact hb) ((hcontract r c).2 hout)
    fun r' c' h hc' hbefore hb' => ?_
  rw [getElem_readBytes] at hb'
  exact Bool.eq_false_iff.2 (mt (hcontract r' c').1 (not_not.2 (hfirst r' c' hc' hbefore hb')))

/-- Settles O35: the check of the addresses comes first, and the search for a pixel out of contract goes by row and column. -/
theorem drawFaultsLeaveTheDisplay : Obligations.DrawFaultsLeaveTheDisplay := fun _ _ _ _ =>
  ⟨exec_drw_of_not_addrsOk, fun ha _ _ hp hr hc hb hout hfirst =>
    exec_drw_of_badPixel ha (firstBadPixel_of_first hp hr hc hb hout hfirst)⟩

end Sys2Proof.Machine
end

section
/-! PROOFS. The family of 47_keyboard.md: the two skips on a key (R91 to R93), and the key wait with the host event that ends
it (R94, R113). -/

namespace Sys2Proof.Machine

/-! ### The skips on a key (R91 to R93) -/

/-- The key read moves the draw counter at most, so its state is told by that counter (R91). -/
theorem keyOf_state (s : State) (b : Byte) : (keyOf s b).2 = { s with keyDraws := (keyOf s b).2.keyDraws } := by
  rcases keyOf_only s b with e | e <;> rw [e]

theorem exec_skp (x : Nibble) (s : State) :
    exec (.skp x) s = .next { s with
      pc := if (keyOf s (readV s x)).1 = true then s.pc + 2 else s.pc
      keyDraws := (keyOf s (readV s x)).2.keyDraws } := by
  rw [exec, execSkp, skipIf_of_iff Iff.rfl, keyOf_state]

theorem exec_sknp (x : Nibble) (s : State) :
    exec (.sknp x) s = .next { s with
      pc := if (keyOf s (readV s x)).1 = true then s.pc else s.pc + 2
      keyDraws := (keyOf s (readV s x)).2.keyDraws } := by
  rw [exec, execSknp, skipIf_of_iff_not (by rw [Bool.not_eq_true', Bool.not_eq_true]), keyOf_state]

/-- Settles O17: the bit and the draws are those of the one key read that both instructions make, which the laws of `keyOf`
tell for Vx up to 15 and for each `KEY_RANGE_POLICY` above it. -/
theorem keySkipsReadTheKey : Obligations.KeySkipsReadTheKey := by
  intro x s
  refine ⟨encodes_encode (i := .skp x) rfl, encodes_encode (i := .sknp x) rfl, _, _, exec_skp x s, exec_sknp x s,
    fun h => ?_, fun h => ?_⟩
  · rw [keyOf_inRange h]; exact ⟨rfl, rfl⟩
  · rw [keyOf_outOfRange h]
    refine ⟨fun hp => ?_, fun hp => ?_, fun hp => ?_⟩ <;> rw [hp] <;> exact ⟨rfl, rfl⟩

/-! ### The key wait and its end (R94, R113) -/

/-- A key event that names a key in range is answered (R115). -/
theorem keyEvent_of_lt {k : Nat} (hk : k < 16) (act : Fin 16 → State → State) (s : State) :
    keyEvent k act s = .next (act ⟨k, hk⟩ s) := dif_pos hk

/-- A key press that the host sends between ticks is the step's whole effect (R113, R114). -/
theorem step_onKeyPress {s : State} {k : Nat} {rest : List HostEvent} (hk : k < 16) (hb : s.batch = none)
    (hi : s.inputs = .onKeyPress k :: rest) : step s = .next (onKeyPress ⟨k, hk⟩ { s with inputs := rest }) := by
  rw [step_between hb, hostTurn_cons hi, hostEvent, hb]
  exact keyEvent_of_lt hk _ _

/-- A key press writes the key into the register that waits and ends the wait (R113). -/
theorem onKeyPress_of_wait {s : State} {x : Nibble} (k : Fin 16) (h : s.waitReg = some x) :
    onKeyPress k s = { writeV s x (BitVec.ofNat 8 k) with waitReg := none, paused := false } := by
  rw [onKeyPress, h]

/-- Settles O37: the register that Fx0A recorded is the one the key press writes. -/
theorem keyWaitEndsAtTheKeyPress : Obligations.KeyWaitEndsAtTheKeyPress := by
  refine fun x s => ⟨encodes_encode (i := .ldK x) rfl, _, rfl, rfl, fun k u rest hk hw hb hi => ?_⟩
  have hwait := onKeyPress_of_wait (s := { u with inputs := rest }) ⟨k, hk⟩ hw
  have hread : (readV (writeV u x (BitVec.ofNat 8 k)) x).toNat = k := by
    rw [readV_writeV, if_pos rfl, BitVec.toNat_ofNat, Nat.mod_eq_of_lt (by omega)]
  exact ⟨_, (step_onKeyPress hk hb hi).trans (congrArg Host.Outcome.next hwait), rfl, hread,
    sameVExcept_writeV u x (BitVec.ofNat 8 k)⟩

end Sys2Proof.Machine
end

section
/-! PROOFS. The family of 60_exceptions.md: faults (R95 to R97, R102), the tick (R103 to R106), setPixel (R107), and the
events and reads of the host (R110 to R115). -/

namespace Sys2Proof.Machine

/-! ### setPixel (R107) -/

/-- In contract, a coordinate is taken through the single correction (R107). -/
theorem coord_eq_wrapOnce {v : Int} {size : Nat} (hlo : -(size : Int) ≤ v) (hhi : v < 2 * size) :
    (coord v size : Int) = wrapOnce v size := by
  have hin : inContract v size = true := decide_eq_true ⟨hlo, hhi⟩
  have hnonneg : 0 ≤ wrapOnce v size := by unfold wrapOnce; split_ifs <;> omega
  rw [coord, if_pos hin, Int.toNat_of_nonneg hnonneg]

/-- Settles O33: the cell is that of `coord` on each axis, which is the remainder everywhere and the single correction in
contract. -/
theorem setPixelTogglesOneCell : Obligations.SetPixelTogglesOneCell := fun d x y =>
  ⟨coord x cols, coord y rows, (pixelCell x y).isLt, coord_eq_emod x cols (by decide), coord_eq_emod y rows (by decide),
    coord_eq_wrapOnce, coord_eq_wrapOnce, setPixel_collided d x y, setPixel_cell d x y⟩

/-! ### What an instruction raises (R95 to R97, R102) -/

/-- Settles O51: each instruction that makes a check answers on both sides of it, and every other one has a single answer. -/
theorem everyInstructionAnswersNext : Obligations.EveryInstructionAnswersNext := by
  intro i s
  cases i with
  | ret =>
    rcases stack_cases s with hempty | ⟨l, w, hpushed⟩
    · exact ⟨_, exec_ret_of_empty hempty⟩
    · exact ⟨_, exec_ret_of_pushed hpushed⟩
  | call nnn =>
    by_cases hfull : s.stack.length = s.params.stackCapacity
    · exact ⟨_, exec_call_of_full nnn hfull⟩
    · exact ⟨_, exec_call_of_room nnn hfull⟩
  | ldB x =>
    by_cases ha : AddrsOk s (baseI s) 3
    · exact ⟨_, exec_ldB_of_addrsOk ha⟩
    · exact ⟨_, exec_ldB_of_not_addrsOk ha⟩
  | stRegs x =>
    by_cases ha : AddrsOk s (baseI s) (regCount x)
    · exact ⟨_, exec_stRegs_of_addrsOk ha⟩
    · exact ⟨_, exec_stRegs_of_not_addrsOk ha⟩
  | ldRegs x =>
    by_cases ha : AddrsOk s (baseI s) (regCount x)
    · exact ⟨_, exec_ldRegs_of_addrsOk ha⟩
    · exact ⟨_, exec_ldRegs_of_not_addrsOk ha⟩
  | drw x y n =>
    by_cases ha : AddrsOk s (baseI s) n.toNat
    · cases hp : firstBadPixel s.params.coordPolicy (drwPixels x y n s) with
      | none => exact ⟨_, exec_drw_of_ok ha hp⟩
      | some p => exact ⟨_, exec_drw_of_badPixel ha hp⟩
    · exact ⟨_, exec_drw_of_not_addrsOk ha⟩
  | _ => exact ⟨_, rfl⟩

/-- An instruction that changes the latch raised, and only the latch is new (R97). -/
theorem exec_raises {i : Instr} {s t : State} (h : exec i s = .next t) (hf : t.fault ≠ s.fault) :
    ∃ code info, Raises s i code info ∧ t = raised s code (encode i) info :=
  (exec_cases h).resolve_right fun eff => hf eff.fault

/-- Settles O55: an instruction that changes the latch raised. -/
theorem faultsArePrecise : Obligations.FaultsArePrecise := fun _ _ _ h hf =>
  let ⟨code, info, _, ht⟩ := exec_raises h hf
  ⟨code, info, ht⟩

/-- Only under `ADDR_POLICY = fault` is a run of addresses not all right (R31). -/
theorem addrPolicy_of_not_addrsOk {s : State} {base n : Nat} (h : ¬ AddrsOk s base n) : s.params.addrPolicy = .fault :=
  (firstBadAddr_some.1 (firstBadAddr_of_not_addrsOk h)).1

/-- Settles O56: the latch went from none to the record, so the instruction raised it, under one of the conditions of
`Raises`. -/
theorem faultCauses : Obligations.FaultCauses := by
  intro i s t h hnone r hr
  obtain ⟨code, info, hraises, rfl⟩ := exec_raises h (by rw [hr, hnone]; exact Option.some_ne_none r)
  obtain rfl := Option.some.inj hr
  cases hraises with
  | underflow hempty => exact .inl ⟨rfl, rfl, rfl, hempty⟩
  | overflow nnn hfull => exact .inr (.inl ⟨rfl, rfl, ⟨nnn, rfl⟩, hfull⟩)
  | pixel x y n row col hp hrow hcol hbit hout =>
    exact .inr (.inr (.inl ⟨rfl, hp, x, y, n, row, col, rfl, hrow, hcol, hbit, hout, rfl⟩))
  | address _ count hbad hi =>
    refine .inr (.inr (.inr ⟨rfl, addrPolicy_of_not_addrsOk hbad, rfl, ?_⟩))
    rcases hi with ⟨x, hi, rfl⟩ | ⟨x, hi, rfl⟩ | ⟨x, y, n, hi, rfl⟩
    · exact .inl ⟨x, hi, hbad⟩
    · exact .inr (.inl ⟨x, hi, hbad⟩)
    · exact .inr (.inr ⟨x, y, n, hi, hbad⟩)

/-! ### The host's events (R110 to R115) -/

/-- Between ticks every interaction of the host has its effect (R114): the converse of `hostEvent_next`. -/
theorem hostEvent_of_effect {e : HostEvent} {s t : State} (hb : s.batch = none) (h : HostEffect s e t) :
    hostEvent e s = .next t := by
  have hidle := Option.not_isSome_iff_eq_none.2 hb
  cases h with
  | keyDown k | keyUp k | onKeyPress k => exact (if_neg hidle).trans (keyEvent_of_lt k.isLt _ s)
  | _ => exact if_neg hidle

/-- Between ticks a step has the effect of the host's next interaction (R114). -/
theorem step_of_hostEffect {e : HostEvent} {rest : List HostEvent} {s t : State} (hb : s.batch = none)
    (hi : s.inputs = e :: rest) (h : HostEffect { s with inputs := rest } e t) : step s = .next t := by
  rw [step_between hb, hostTurn_cons hi]; exact hostEvent_of_effect hb h

/-- A key press with no wait pending does nothing (R113). -/
theorem onKeyPress_of_no_wait {s : State} (k : Fin 16) (h : s.waitReg = none) : onKeyPress k s = s := by
  rw [onKeyPress, h]

/-- Settles O38: each event has its own effect on the key map, and a key press without a wait has none. -/
theorem keyEventsBetweenTicks : Obligations.KeyEventsBetweenTicks := by
  refine fun s k hk rest hb => ⟨fun hi => step_of_hostEffect hb hi (.keyDown ⟨k, hk⟩),
    fun hi => step_of_hostEffect hb hi (.keyUp ⟨k, hk⟩), fun hi hw => ?_⟩
  exact (step_onKeyPress hk hb hi).trans (congrArg Host.Outcome.next (onKeyPress_of_no_wait ⟨k, hk⟩ hw))

/-- During a tick every event of the host is refused (R115). -/
theorem hostEvent_inTick (e : HostEvent) {s : State} (h : s.batch ≠ none) :
    hostEvent e s = .refused .hostEventDuringTick := if_pos (Option.isSome_iff_ne_none.2 h)

/-- A key event that names a key out of range is refused (R115). -/
theorem keyEvent_of_not_lt {k : Nat} (hk : ¬ k < 16) (act : Fin 16 → State → State) (s : State) :
    keyEvent k act s = .refused (.keyIndexOutOfRange k) := dif_neg hk

/-- Settles O39: between ticks every event whose key, if it names one, is in range has its effect. -/
theorem refusalsAreOnlyOutOfContractEvents : Obligations.RefusalsAreOnlyOutOfContractEvents := by
  refine fun e s => ⟨hostEvent_inTick e, fun hb k he hk => ?_, fun hb hkeys => ?_⟩
  · have hidle := Option.not_isSome_iff_eq_none.2 hb
    rcases he with rfl | rfl | rfl <;> exact (if_neg hidle).trans (keyEvent_of_not_lt (Nat.not_lt.2 hk) _ s)
  · have effect {t : State} (h : HostEffect s e t) : ∃ t, hostEvent e s = .next t := ⟨t, hostEvent_of_effect hb h⟩
    cases e with
    | construct => exact effect .construct
    | loadFont => exact effect .loadFont
    | loadProgram bytes => exact effect (.loadProgram bytes)
    | tick cpt => exact effect (.tick cpt)
    | keyDown k => exact effect (.keyDown ⟨k, Nat.lt_succ_of_le (hkeys k (.inl rfl))⟩)
    | keyUp k => exact effect (.keyUp ⟨k, Nat.lt_succ_of_le (hkeys k (.inr (.inl rfl)))⟩)
    | onKeyPress k => exact effect (.onKeyPress ⟨k, Nat.lt_succ_of_le (hkeys k (.inr (.inr rfl)))⟩)
    | readDisplay => exact effect .readDisplay
    | readTone => exact effect .readTone
    | readFault => exact effect .readFault

theorem length_render (s : State) : (render s).length = 2048 := by
  rw [render, List.length_map, List.length_range]

/-- The pixel of column x and row y stands at place y * 64 + x of the host's read, with the cell of R20 (R110). -/
theorem getElem?_render (s : State) {x y : Nat} (hx : x < 64) (hc : y * 64 + x < 2048) :
    (render s)[y * 64 + x]? = some (x, y, s.disp[y * 64 + x]) := by
  have hcol : (y * 64 + x) % cols = x := by unfold cols; omega
  have hrow : (y * 64 + x) / cols = y := by unfold cols; omega
  simp [render, hcol, hrow, hc, Vector.getD]

/-- Settles O50: each read appends its answer to the replies, and the display is answered in the order of its cells. -/
theorem hostReadsAreReadOnly : Obligations.HostReadsAreReadOnly := by
  refine fun s rest hb => ⟨fun hi => ⟨render s, step_of_hostEffect hb hi .readDisplay, length_render s, ?_⟩,
    fun hi => step_of_hostEffect hb hi .readTone, fun hi => step_of_hostEffect hb hi .readFault⟩
  intro x y hx hy
  have hc : y * 64 + x < 2048 := by omega
  exact ⟨s.disp[y * 64 + x], Vector.getElem?_eq_getElem hc, getElem?_render s hx hc⟩

/-! ### The latch (R24, R97, R100) -/

theorem onKeyPress_fault (k : Fin 16) (s : State) : (onKeyPress k s).fault = s.fault := by
  unfold onKeyPress; split <;> rfl

/-- No interaction of the host but construction writes the latch (R24, R97). -/
theorem HostEffect.fault {e : HostEvent} {s t : State} (h : HostEffect s e t) : e = .construct ∨ t.fault = s.fault := by
  cases h with
  | construct => exact .inl rfl
  | loadProgram bytes => right; rw [loadProgram_only]
  | tick cpt => right; rw [beginTick_only]
  | onKeyPress k => exact .inr (onKeyPress_fault k s)
  | _ => exact .inr rfl

/-- Settles O57: a halted core only ends its tick, and between ticks only construction writes the latch. -/
theorem faultLatchIsSticky : Obligations.FaultLatchIsSticky := by
  intro s t hf h
  cases hb : s.batch with
  | some n => rw [step_inTick hb, tickTurn_halted n hf] at h; cases h; exact .inl rfl
  | none =>
    obtain ⟨e, rest, hi, he⟩ := step_between_cases hb h
    rcases (hostEvent_next he).2.fault with rfl | hkept
    · rcases hi with hi | ⟨-, -, htick⟩
      · exact .inr ⟨rfl, rest, hi⟩
      · cases htick
    · exact .inl hkept

/-! ### The end of a tick (R103 to R106) -/

/-- Settles O40: the number of each timer after its conditional subtraction. -/
theorem timersCountDownToZero : Obligations.TimersCountDownToZero := fun s =>
  ⟨toNat_countDown s.dt, toNat_countDown s.st, rfl⟩

theorem finishTick_of_paused {s : State} (h : s.paused = true) : finishTick s = emitFrame (toneUpdate s) := by
  rw [finishTick, if_pos h]

theorem finishTick_of_not_paused {s : State} (h : ¬ s.paused = true) :
    finishTick s = emitFrame (toneUpdate (timerDecrement s)) := by
  rw [finishTick, if_neg h]

theorem finishTick_outputs (s : State) : (finishTick s).outputs = s.outputs ++ [.frameReady] := by
  by_cases h : s.paused = true
  · rw [finishTick_of_paused h]; rfl
  · rw [finishTick_of_not_paused h]; rfl

theorem toNat_finishTick_dt (s : State) :
    (finishTick s).dt.toNat = if s.paused = true then s.dt.toNat else s.dt.toNat - 1 := by
  split_ifs with h
  · rw [finishTick_of_paused h]; rfl
  · rw [finishTick_of_not_paused h]; exact toNat_countDown s.dt

theorem toNat_finishTick_st (s : State) :
    (finishTick s).st.toNat = if s.paused = true then s.st.toNat else s.st.toNat - 1 := by
  split_ifs with h
  · rw [finishTick_of_paused h]; rfl
  · rw [finishTick_of_not_paused h]; exact toNat_countDown s.st

/-- The tone follows the value of ST after the decrement (R105). -/
theorem finishTick_tone (s : State) : (finishTick s).tone = true ↔ 0 < (finishTick s).st.toNat := decide_eq_true_iff

/-- Settles O41: a halted core ends its tick as it is; a paused one, or a loop with no turn left, goes through
`finishTick`. -/
theorem tickEndUpdatesTimersToneAndFrame : Obligations.TickEndUpdatesTimersToneAndFrame := by
  intro s n hb
  rw [step_inTick hb]
  refine ⟨tickTurn_halted n, fun hf hend => ⟨_, tickTurn_end hf hend, ?_, toNat_finishTick_dt _, toNat_finishTick_st _,
    finishTick_tone _⟩⟩
  rw [finishTick_only, finishTick_outputs]

/-! ### Runs of the machine -/

/-- A run starts with its first step. -/
theorem run_succ {s t : State} (k : Nat) (h : step s = .next t) :
    Host.Core.run Sys2Proof.core (k + 1) s = Host.Core.run Sys2Proof.core k t := by
  have hcore : Sys2Proof.core.step s = .next t := h
  simp only [Host.Core.run, hcore]

theorem run_one {s t : State} (h : step s = .next t) : Host.Core.run Sys2Proof.core 1 s = .next t := run_succ 0 h

/-- A state that its step keeps is kept for ever. -/
theorem run_of_step_self {s : State} (h : step s = .next s) (k : Nat) : Host.Core.run Sys2Proof.core k s = .next s := by
  induction k with
  | zero => rfl
  | succ k ih => rw [run_succ k h, ih]

/-! ### The start of a tick (R103) -/

theorem beginTick_halted (cpt : Nat) {s : State} (h : s.fault ≠ none) : beginTick cpt s = s :=
  if_pos (Option.isSome_iff_ne_none.2 h)

theorem beginTick_of_not_halted (cpt : Nat) {s : State} (h : s.fault = none) :
    beginTick cpt s = { s with batch := some cpt } := by
  rw [beginTick, h]; rfl

/-- Once the host's list is empty, a step between ticks starts a tick (R114). -/
theorem step_of_no_inputs {s : State} (hb : s.batch = none) (hi : s.inputs = []) :
    step s = .next (beginTick s.params.cyclesPerTick s) := by
  rw [step_between hb, hostTurn, hi]; exact hostEvent_of_effect hb (.tick _)

/-- The host's tick leaves a halted core as it is (R103). -/
theorem step_tick_halted {s : State} {cpt : Nat} {rest : List HostEvent} (hb : s.batch = none) (hf : s.fault ≠ none)
    (hi : s.inputs = .tick cpt :: rest) : step s = .next { s with inputs := rest } :=
  (step_of_hostEffect hb hi (.tick cpt)).trans (congrArg Host.Outcome.next (beginTick_halted cpt hf))

/-- The host's tick gives any other core the turns of its loop (R103). -/
theorem step_tick_of_not_halted {s : State} {cpt : Nat} {rest : List HostEvent} (hb : s.batch = none)
    (hf : s.fault = none) (hi : s.inputs = .tick cpt :: rest) :
    step s = .next { s with inputs := rest, batch := some cpt } :=
  (step_of_hostEffect hb hi (.tick cpt)).trans (congrArg Host.Outcome.next (beginTick_of_not_halted cpt hf))

/-- Settles O44: starting a tick leaves a halted core as it is, so the idle host's tick is a step that keeps the state. -/
theorem haltedCoreIgnoresTicks : Obligations.HaltedCoreIgnoresTicks := by
  refine fun s hf hb => ⟨fun _ _ => step_tick_halted hb hf, fun hi => run_of_step_self ?_⟩
  rw [step_of_no_inputs hb hi, beginTick_halted _ hf]

/-! ### The whole tick, turn by turn (R103) -/

theorem cpuStep_answers (s : State) : ∃ t, cpuStep s = .next t := by
  by_cases ha : AddrsOk s s.pc.toNat 2
  · cases hd : decodeWord (fetchWord s) with
    | ok i => rw [cpuStep_instr ha hd]; exact everyInstructionAnswersNext i _
    | error e =>
      rw [cpuStep_undefined ha hd, execUndefined]
      cases (advance s).params.undefinedSubop <;> exact ⟨_, rfl⟩
  · exact ⟨_, cpuStep_fetchFault ha⟩

theorem set_batch_self {s : State} {b : Option Nat} (h : s.batch = b) : { s with batch := b } = s := by
  subst h; rfl

/-- A step of the core keeps the batch position, since it commutes with setting it to what it is (R103). -/
theorem cpuStep_keeps_batch {s t : State} (h : cpuStep s = .next t) : t.batch = s.batch := by
  have hset : Host.Outcome.next t = .next { t with batch := s.batch } :=
    h.symm.trans ((cpuStep_batch s s.batch).trans (congrArg (onNext _) h))
  rw [Host.Outcome.next.inj hset]

section
variable {n : Nat} {s t : State}

/-- A turn that executes, by the step of the core that it takes (R103). -/
theorem step_turn_runs (hf : s.fault = none) (hp : s.paused = false) (hc : cpuStep s = .next t) :
    step { s with batch := some (n + 1) } = .next { t with batch := some n } := by
  have hrun := tickTurn_run (s := { s with batch := some (n + 1) }) (n := n) hf hp
  rw [step_inTick rfl, hrun]
  exact (cpuStep_batch s (some n)).trans (congrArg (onNext _) hc)

/-- A turn that goes to the tick's end gives what R103 makes of the core at the end of its loop. -/
theorem step_turn_ends (hb : s.batch = none) (hf : s.fault = none) (hend : s.paused = true ∨ n = 0) :
    step { s with batch := some n } = .next (finishTick s) := by
  have hturn := tickTurn_end (s := { s with batch := some n }) hf hend
  rw [step_inTick rfl, hturn]
  exact congrArg (fun u => Host.Outcome.next (finishTick u)) (set_batch_self hb)

/-- A turn of a halted core ends the tick with the core as it is (R97). -/
theorem step_turn_halted (hb : s.batch = none) (hf : s.fault ≠ none) : step { s with batch := some n } = .next s := by
  have hturn := tickTurn_halted (s := { s with batch := some n }) n hf
  rw [step_inTick rfl, hturn]
  exact congrArg Host.Outcome.next (set_batch_self hb)

end

/-- Settles O43: the first step starts the tick, and the second finds the core paused and ends it. -/
theorem pausedTickOnlySignals : Obligations.PausedTickOnlySignals := by
  intro s cpt rest hb hf hp hi
  have hend := step_turn_ends (s := { s with inputs := rest }) (n := cpt) hb hf (.inl hp)
  exact (run_succ 1 (step_tick_of_not_halted hb hf hi)).trans
    ((run_one hend).trans (congrArg Host.Outcome.next (finishTick_of_paused hp)))

/-! ### The loop of a tick against its turns (R103) -/

theorem tickLoop_end {n : Nat} {s : State} (h : s.paused = true ∨ n = 0) : tickLoop n s = .next s := by
  cases n with
  | zero => rfl
  | succ n => rw [tickLoop, if_pos (h.resolve_right n.succ_ne_zero)]

theorem tickLoop_of_fault {n : Nat} {s t : State} (hp : s.paused = false) (hc : cpuStep s = .next t)
    (hf : t.fault ≠ none) : tickLoop (n + 1) s = .next t := by
  simp [tickLoop, hp, hc, Option.isSome_iff_ne_none.2 hf]

theorem tickLoop_of_step {n : Nat} {s t : State} (hp : s.paused = false) (hc : cpuStep s = .next t)
    (hf : t.fault = none) : tickLoop (n + 1) s = tickLoop n t := by
  simp [tickLoop, hp, hc, hf]

/-- The state after a whole tick whose loop has left `t` (R103): a fault in the loop leaves out the end of the tick. -/
def afterLoop (t : State) : State := if t.fault.isSome then t else finishTick t

theorem afterLoop_halted {t : State} (h : t.fault ≠ none) : afterLoop t = t := if_pos (Option.isSome_iff_ne_none.2 h)

theorem afterLoop_of_not_halted {t : State} (h : t.fault = none) : afterLoop t = finishTick t := by
  rw [afterLoop, h]; rfl

theorem afterLoop_batch (t : State) : (afterLoop t).batch = t.batch := by
  unfold afterLoop
  split
  · rfl
  · rw [finishTick_only]

theorem wholeTick_halted (cpt : Nat) {s : State} (h : s.fault ≠ none) : wholeTick cpt s = .next s :=
  if_pos (Option.isSome_iff_ne_none.2 h)

theorem wholeTick_of_tickLoop {cpt : Nat} {s t : State} (hf : s.fault = none) (hl : tickLoop cpt s = .next t) :
    wholeTick cpt s = .next (afterLoop t) := by
  simp [wholeTick, hf, hl, afterLoop]

/-- The turns of a tick run R103's loop and the end of the tick: from `n` turns left, at most `n + 1` steps lead to the
state after the loop of `n` turns. -/
theorem run_tickLoop {s : State} (n : Nat) (hf : s.fault = none) (hb : s.batch = none) :
    ∃ k t, k ≤ n + 1 ∧ tickLoop n s = .next t ∧ t.batch = none ∧
      Host.Core.run Sys2Proof.core k { s with batch := some n } = .next (afterLoop t) := by
  induction n generalizing s with
  | zero =>
    refine ⟨1, s, le_rfl, rfl, hb, ?_⟩
    rw [afterLoop_of_not_halted hf]; exact run_one (step_turn_ends hb hf (.inr rfl))
  | succ n ih =>
    by_cases hp : s.paused = true
    · refine ⟨1, s, by omega, tickLoop_end (.inl hp), hb, ?_⟩
      rw [afterLoop_of_not_halted hf]; exact run_one (step_turn_ends hb hf (.inl hp))
    · have hp : s.paused = false := Bool.eq_false_iff.2 hp
      obtain ⟨t, hc⟩ := cpuStep_answers s
      have htb : t.batch = none := (cpuStep_keeps_batch hc).trans hb
      have hturn := step_turn_runs (n := n) hf hp hc
      by_cases htf : t.fault = none
      · obtain ⟨k, u, hk, hl, hub, hrun⟩ := ih htf htb
        exact ⟨k + 1, u, by omega, (tickLoop_of_step hp hc htf).trans hl, hub, (run_succ k hturn).trans hrun⟩
      · refine ⟨2, t, by omega, tickLoop_of_fault hp hc htf, htb, ?_⟩
        rw [afterLoop_halted htf]; exact (run_succ 1 hturn).trans (run_one (step_turn_halted htb htf))

/-- Settles O42: after the step that starts the tick, the turns run the loop; on a halted core that step is the whole
tick. -/
theorem stepsRunTheWholeTick : Obligations.StepsRunTheWholeTick := by
  intro s cpt rest hb hi
  by_cases hf : s.fault = none
  · obtain ⟨k, t, hk, hl, htb, hrun⟩ := run_tickLoop (s := { s with inputs := rest }) cpt hf hb
    have hwhole := wholeTick_of_tickLoop (s := { s with inputs := rest }) hf hl
    exact ⟨k + 1, by omega, (run_succ k (step_tick_of_not_halted hb hf hi)).trans (hrun.trans hwhole.symm), _, hwhole,
      (afterLoop_batch t).trans htb⟩
  · have hwhole := wholeTick_halted (s := { s with inputs := rest }) cpt hf
    exact ⟨1, by omega, (run_one (step_tick_halted hb hf hi)).trans hwhole.symm, _, hwhole, hb⟩

end Sys2Proof.Machine
end

section
/-! PROOFS. The family of 70_reset_and_hazards.md: construction (R119), the loads (R121, R122), and what stays constant
within a tick (R127). -/

namespace Sys2Proof.Machine

/-! ### What stays constant within a tick (R127) -/

/-- What a step of the core keeps of what a tick holds constant (R25, R41, R127): the host's list, the keys, the tone, the
replies, and each timer unless the step executes the instruction that writes it. -/
structure TickConstant (s t : State) : Prop where
  inputs  : t.inputs = s.inputs
  keys    : t.keys = s.keys
  tone    : t.tone = s.tone
  outputs : t.outputs = s.outputs
  dt      : t.dt = s.dt ∨ ∃ x, decodeWord (fetchWord s) = .ok (.ldDtWrite x)
  st      : t.st = s.st ∨ ∃ x, decodeWord (fetchWord s) = .ok (.ldSt x)

/-- An instruction that raises nothing writes only the timer of its own row among them. -/
theorem Effect.tickConstant {i : Instr} {s t : State} (eff : Effect i (advance s) t)
    (hd : decodeWord (fetchWord s) = .ok i) : TickConstant s t where
  inputs := eff.inputs
  keys := eff.keys
  tone := eff.tone
  outputs := eff.outputs
  dt := eff.dt.imp_right fun ⟨x, hi⟩ => ⟨x, hi ▸ hd⟩
  st := eff.st.imp_right fun ⟨x, hi⟩ => ⟨x, hi ▸ hd⟩

/-- pc and the latch are not among what a tick holds constant. -/
theorem tickConstant_set_pc_fault (s : State) (p : Word) (r : Option FaultRecord) :
    TickConstant s { s with pc := p, fault := r } := ⟨rfl, rfl, rfl, rfl, .inl rfl, .inl rfl⟩

/-- A fault and an undefined word write at most pc and the latch; any other instruction has its `Effect`. -/
theorem cpuStep_tickConstant {s t : State} (h : cpuStep s = .next t) : TickConstant s t := by
  rcases cpuStep_cases h with ⟨a, -, -, rfl⟩ | ⟨i, hd, hx⟩ | ⟨-, rfl | rfl⟩
  · exact tickConstant_set_pc_fault s _ _
  · rcases exec_cases hx with ⟨code, info, -, rfl⟩ | eff
    · exact tickConstant_set_pc_fault s _ _
    · exact eff.tickConstant hd
  · exact tickConstant_set_pc_fault s _ _
  · exact tickConstant_set_pc_fault s _ _

/-- Settles O45: a turn that ends the tick has no batch position after it and keeps the host's list and the keys; any other
turn is a step of the core. -/
theorem batchSeesConstantKeysAndTimers : Obligations.BatchSeesConstantKeysAndTimers := by
  intro s t n hb h
  rw [step_inTick hb] at h
  rcases tickTurn_cases h with ⟨-, rfl⟩ | ⟨-, -, rfl⟩ | ⟨-, -, m, -, hc⟩
  · exact ⟨rfl, rfl, fun hrunning => absurd rfl hrunning⟩
  · rw [finishTick_only]
    exact ⟨rfl, rfl, fun hrunning => absurd rfl hrunning⟩
  · obtain ⟨hinputs, hkeys, htone, houtputs, hdt, hst⟩ := cpuStep_tickConstant hc
    exact ⟨hinputs, hkeys, fun _ => ⟨htone, houtputs, hdt, hst⟩⟩

/-! ### The loads (R121, R122) -/

/-- loadFont fills the cells below 80 from the table and leaves every other cell (R121). -/
theorem cellRead_loadFont (s : State) (a : Nat) :
    cellRead (loadFont s).mem a = if h : a < 80 then s.params.fontTable[a] else cellRead s.mem a := by
  simp [loadFont, cellRead_loadBytes]

/-- A second loadFont writes the same bytes to the same cells (R121). -/
theorem sameBytes_loadFont_loadFont (s : State) : SameBytes (loadFont s) (loadFont (loadFont s)) := by
  intro a
  rw [cellRead_loadFont (loadFont s) a]
  split_ifs with ha
  · rw [cellRead_loadFont, dif_pos ha]; rfl
  · rfl

/-- Settles O48: the bytes are those of `cellRead_loadFont`, and the host's event is loadFont itself. -/
theorem loadFontWritesTheTable : Obligations.LoadFontWritesTheTable := fun s =>
  ⟨rfl, cellRead_loadFont s, fun _ hb hi => step_of_hostEffect hb hi .loadFont, sameBytes_loadFont_loadFont s⟩

theorem loadProgram_of_fits {bytes : List Byte} (s : State) (h : bytes.length ≤ 3584) :
    loadProgram bytes s = reply .loadOk { s with mem := loadBytes s.mem 0x200 bytes } :=
  if_neg (Nat.not_lt.2 h)

theorem loadProgram_of_too_large {bytes : List Byte} (s : State) (h : 3584 < bytes.length) :
    loadProgram bytes s = reply (.programTooLarge bytes.length) s :=
  if_pos h

/-- Byte k of a run of loads stands in cell a + k afterwards (R122). -/
theorem cellRead_loadBytes_inside (m : List Host.Cell) (a : Nat) {l : List Byte} {k : Nat} (hk : k < l.length) :
    cellRead (loadBytes m a l) (a + k) = l[k] := by
  have hin : a ≤ a + k ∧ a + k - a < l.length := by omega
  rw [cellRead_loadBytes, dif_pos hin]
  simp only [Nat.add_sub_cancel_left]

theorem cellRead_loadBytes_outside (m : List Host.Cell) {a c : Nat} {l : List Byte} (h : c < a ∨ a + l.length ≤ c) :
    cellRead (loadBytes m a l) c = cellRead m c := by
  rw [cellRead_loadBytes, dif_neg (by omega)]

/-- Settles O49: a program that fits is one run of loads at 0x200, and a longer one is only answered. -/
theorem loadProgramCopiesOrRejects : Obligations.LoadProgramCopiesOrRejects := by
  intro s bytes rest hb hi
  have hstep : step s = .next (loadProgram bytes { s with inputs := rest }) :=
    step_of_hostEffect hb hi (.loadProgram bytes)
  refine ⟨fun hfits => ⟨_, hstep.trans (congrArg _ (loadProgram_of_fits _ hfits)), rfl, ?_, ?_⟩, fun hlong => ?_⟩
  · exact fun k hk => cellRead_loadBytes_inside s.mem 0x200 hk
  · exact fun a ha => cellRead_loadBytes_outside s.mem ha
  · exact hstep.trans (congrArg _ (loadProgram_of_too_large _ hlong))

/-! ### Construction (R119) -/

/-- Settles O47: no element of the core takes its value after construction from a parameter, so each has the one that
`resetValues` gives it; the rest is the model's own bookkeeping, which `constructAgain` puts back. -/
theorem constructionResetsTheCore : Obligations.ConstructionResetsTheCore := by
  intro s rest hb hi
  have hstep : step s = .next (constructAgain { s with inputs := rest }) := step_of_hostEffect hb hi .construct
  obtain ⟨hmem, hv, hindex, hpc, hstack, hdt, hst, hdisp, hkeys, hpaused, hwait, hfault, htone⟩ := resetValues
  exact ⟨_, hstep, hmem, hv, hindex, hpc, hstack, hdt, hst, hdisp, hkeys, hpaused, hwait, hfault, htone,
    rfl, rfl, rfl, rfl, rfl, rfl⟩

end Sys2Proof.Machine
end
